-- ==== Sys2Proof/Word.lean ====
section
/-! DEFINITION. The 32-bit word of the block (00_scope.md R6, R8): bit 0 is the least significant. -/

namespace Sys2Proof

/-- Every state word, seed word and output word (R6: `W = 32`, no variant changes it). -/
abbrev Word := BitVec 32

end Sys2Proof
end

