-- ==== Sys2Proof/Config.lean ====
section
/-! DEFINITION. What an implementation fixes: the variant descriptor's type (44_variant_table.md R135), the seventeen
variant names (R138), and the parameters the spec leaves OPEN, as constants without a body. -/

namespace Sys2Proof

/-- The tempering tag (30_encoding.md R67): "none / 'a' / 'b' / 'c'". -/
inductive Tag where
  | none | a | b | c
  deriving DecidableEq, Repr

/-- The seventeen variants of R138. Four names are the source's own, thirteen are formed by the spec (D12). -/
inductive VariantName where
  | well512a | well521a | well521b | well607a | well607b | well800a | well800b | well1024a | well1024b
  | well19937a | well19937b | well19937c | well21701a | well23209a | well23209b | well44497a | well44497b
  deriving DecidableEq, Repr, Inhabited

/-- The variant descriptor `D` of R135, as raw data. `Descriptor.wf` (Machine/VariantTable.lean) is the check of R136,
`CheckedDescriptor` there the raw record with its proof. -/
structure Descriptor where
  /-- Which of the seventeen variants this is; `none` for a descriptor that is none of them. Read by nothing at run time. -/
  name : Option VariantName
  /-- Number of 32-bit words in the ring. -/
  r : Nat
  /-- Number of taps, equal to the number of recurrence shift constants. -/
  n : Nat
  /-- Tap offsets relative to the cursor, in evaluation order. -/
  P : List Int
  /-- Recurrence shift constants with signs (positive left, negative right, zero identity). -/
  K : List Int
  /-- Write offset of the new word, relative to the cursor before the advance. -/
  w : Int
  /-- Tempering tag. -/
  tag : Tag
  /-- Tempering shift constant; read only for tags `b` and `c`. -/
  kt : Int
  /-- Store the tempered word back; read only for tags `b` and `c`. -/
  tstore : Bool
  deriving DecidableEq, Repr

/-! The OPEN parameters (92_eei_decisions.md, "Parameters left OPEN"; log 2). Each is a free value: no proof can see it.
`variantDescriptor` (Machine/VariantTable.lean) brings each number into the range that R136 asks of a descriptor. -/

/-- Which variant this system was built for (R143: one variant for its whole life). -/
opaque Config.variant : VariantName
/-- `N_INST - 1` (R172: `N_INST >= 1`). -/
opaque Config.extraInstances : Nat
/-- `R_<name> - 1` (R141: the literals are unaudited, so the size is OPEN). -/
opaque Config.sizePred : VariantName → Nat
/-- Fixes `<name>.n`. -/
opaque Config.tapExtra : VariantName → Nat
/-- Fixes `<name>.P[j]`. -/
opaque Config.tapOffset : VariantName → Nat → Nat
/-- Fixes `<name>.K[j]`. -/
opaque Config.shiftConst : VariantName → Nat → Nat
/-- Fixes `<name>.w`. -/
opaque Config.writeOffset : VariantName → Nat
/-- Fixes `<name>.kt`. -/
opaque Config.temperConst : VariantName → Nat
/-- `<name>.tstore` (43_tempering.md R130: "do not guess a uniform rule across all seventeen variants"). -/
opaque Config.storeBack : VariantName → Bool
/-- `ISPOW2_ZERO`, the power-of-two helper at 0 (40_bitops.md R83). No command reaches it. -/
opaque Config.isPow2Zero : Bool

/-- The data of `SIZE` for a ring of 2^32 words or more: `zext_32(D.r)` (42_engine.md R106) names no word there, and `WF` (R136)
does not exclude such an `r` (log 27). -/
opaque Config.oversize : Nat → Word

end Sys2Proof
end

