-- ==== Sys2Proof/Syntax.lean ====
section
/-! DEFINITION. The instructions: one constructor per row of spec/opcode_table.json (30_encoding.md R74), and the forms
they take on the ports (R60, R65 to R67). -/

namespace Sys2Proof

/-- The fifteen operations. A host command does not name the instance it is sent to (R60); a unit operation carries the
operands of its port (R65 to R67). -/
inductive Instr where
  /-- `SEED` (R101): carries its data words; `LEN` is their number (R70, R187). -/
  | seed (data : List Word)
  /-- `NEXT` (R102). -/
  | next
  /-- `MIN` (R104). -/
  | min
  /-- `MAX` (R105). -/
  | max
  /-- `SIZE` (R106). -/
  | size
  /-- `EQ` (R107): `PEER`, the other instance's index. -/
  | eq (peer : BitVec 28)
  /-- `AT` (R91): the relative offset, any integer. -/
  | ringAt (off : Int)
  /-- `SET` (R92): the relative offset and the word to write. -/
  | ringSet (off : Int) (v : Word)
  /-- `ADVANCE` (R93). -/
  | advance
  /-- `CLRCUR` (R94). -/
  | clrcur
  /-- `MIX` (R80): the word and the signed shift amount. -/
  | mix (v : Word) (k : Int)
  /-- `TEMPER.NONE` (R126); the constant is carried and not read. -/
  | temperNone (z : Word) (kt : Int)
  /-- `TEMPER.A` (R127); the constant is carried and not read. -/
  | temperA (z : Word) (kt : Int)
  /-- `TEMPER.B` (R128). -/
  | temperB (z : Word) (kt : Int)
  /-- `TEMPER.C` (R129). -/
  | temperC (z : Word) (kt : Int)
  deriving DecidableEq, Repr

/-- An operation as it stands on a port: format H (command word and the words after it), R, M or T. The offset operand of
format R is an unbounded integer: its width `OFFW` is OPEN and not observable (30_encoding.md R65, D19), so the model has no
constant for it and carries every offset exactly (DESIGN CHOICE, log 26). -/
inductive Encoded where
  | host (cw : Word) (data : List Word)
  | ring (rop : BitVec 2) (off : Int) (wdata : Word)
  | mix (kf : BitVec 6) (v : Word)
  | temper (tf : BitVec 2) (ktf : BitVec 6) (z : Word)
  deriving DecidableEq, Repr

end Sys2Proof
end

