-- ==== Sys2Proof/Machine/Operands.lean ====
section
/-! DEFINITION. Every operand form: the fields of the command word, the 6-bit shift field, the relative ring offset, and
the two logical shifts. -/

namespace Sys2Proof.Machine

/-- `OPC = CW[31:28]` (30_encoding.md R60). -/
def cwOpc (cw : Word) : BitVec 4 := cw.extractLsb' 28 4

/-- `ARG = CW[27:0]`, read as an unsigned 28-bit integer (R62). -/
def cwArg (cw : Word) : BitVec 28 := cw.extractLsb' 0 28

/-- The command word with the given opcode and operand (R60). -/
def cwMake (opc : BitVec 4) (arg : BitVec 28) : Word := opc ++ arg

/-- `k = sext(KF[5:0])` (R66). -/
def shiftOfField (kf : BitVec 6) : Int := kf.toInt

/-- The 6-bit two's-complement field that holds `k` (R66). -/
def fieldOfShift (k : Int) : BitVec 6 := BitVec.ofInt 6 k

/-- `phys(i) = (cursor + i) mod r`, floor modulus (20_memory.md R41, 00_scope.md R9). -/
def phys (r cursor : Nat) (off : Int) : Nat := (((cursor : Int) + off) % (r : Int)).toNat

/-- `SHL(v, s) = (v * 2^s) mod 2^32` (R9). -/
def shl (v : Word) (s : Nat) : Word := v <<< s

/-- `SHR(v, s) = floor(v / 2^s)` (R9): zeros enter at bit 31. -/
def shr (v : Word) (s : Nat) : Word := v >>> s

end Sys2Proof.Machine
end

