-- ==== Sys2Proof/WellFormed.lean ====
section
/-! DEFINITION. Which instructions exist in a system of `nInst` instances: those some legal encoding stands for
(30_encoding.md R62, R66, R69). -/

namespace Sys2Proof

/-- A legal shift amount: magnitude below 32 (40_bitops.md R82). -/
abbrev ShiftLegal (k : Int) : Prop := -31 ≤ k ∧ k ≤ 31

/-- A value the 6-bit field of format M holds (R66). -/
abbrev FieldHolds (k : Int) : Prop := -32 ≤ k ∧ k ≤ 31

/-- `LEN` fits its 28-bit field (R62); `PEER` names an existing instance (R69 (c)); the shift operand of an operation that
uses it is not the illegal field value (R69 (d)); an unused `KTF` is any field value (R67). -/
def Instr.wf (nInst : Nat) : Instr → Bool
  | .seed data => decide (data.length < 2 ^ 28)
  | .next => true
  | .min => true
  | .max => true
  | .size => true
  | .eq peer => decide (peer.toNat < nInst)
  | .ringAt _ => true
  | .ringSet _ _ => true
  | .advance => true
  | .clrcur => true
  | .mix _ k => decide (ShiftLegal k)
  | .temperNone _ kt => decide (FieldHolds kt)
  | .temperA _ kt => decide (FieldHolds kt)
  | .temperB _ kt => decide (ShiftLegal kt)
  | .temperC _ kt => decide (ShiftLegal kt)

end Sys2Proof
end

