-- ==== Sys2Proof/Machine/VariantTable.lean ====
section
/-! DEFINITION. The VariantTable (44_variant_table.md): the check `WF(D)`, the seventeen variants, the stored form of a
descriptor. -/

namespace Sys2Proof

/-- `WF(D)` (R136), clauses (a) to (e); clause (f) holds by the type of `tag`. -/
def Descriptor.wf (d : Descriptor) : Bool :=
  decide (1 ≤ d.r)
    && decide (3 ≤ d.n ∧ d.n ≤ 5 ∧ d.P.length = d.n ∧ d.K.length = d.n)
    && d.P.all (fun p => decide (0 ≤ p ∧ p < (d.r : Int)))
    && decide (0 ≤ d.w ∧ d.w < (d.r : Int))
    && d.K.all (fun k => decide (ShiftLegal k))
    && decide (ShiftLegal d.kt)

/-- Whether the slot written by a step ends holding the tempered word (43_tempering.md R130): only tags `b` and `c` read
`tstore`. -/
def Descriptor.storesBack (d : Descriptor) : Bool :=
  match d.tag with
  | .none => false
  | .a => false
  | .b => d.tstore
  | .c => d.tstore

/-- The variant's public name (R138). -/
def VariantName.text : VariantName → String
  | .well512a => "Well512a"
  | .well521a => "Well521a"
  | .well521b => "Well521b"
  | .well607a => "Well607a"
  | .well607b => "Well607b"
  | .well800a => "Well800a"
  | .well800b => "Well800b"
  | .well1024a => "Well1024a"
  | .well1024b => "Well1024b"
  | .well19937a => "Well19937a"
  | .well19937b => "Well19937b"
  | .well19937c => "Well19937c"
  | .well21701a => "Well21701a"
  | .well23209a => "Well23209a"
  | .well23209b => "Well23209b"
  | .well44497a => "Well44497a"
  | .well44497b => "Well44497b"

/-- `r` as the source states it (R138): an unaudited literal (R141) that no rule depends on. -/
def VariantName.documentedSize : VariantName → Nat
  | .well512a => 512
  | .well521a => 521
  | .well521b => 521
  | .well607a => 607
  | .well607b => 607
  | .well800a => 800
  | .well800b => 800
  | .well1024a => 1024
  | .well1024b => 1024
  | .well19937a => 19937
  | .well19937b => 19937
  | .well19937c => 19937
  | .well21701a => 21701
  | .well23209a => 23209
  | .well23209b => 23209
  | .well44497a => 44497
  | .well44497b => 44497

/-- The tag is the letter of the name (R139); no variant has tag `none`. -/
def VariantName.tag : VariantName → Tag
  | .well512a => .a
  | .well521a => .a
  | .well521b => .b
  | .well607a => .a
  | .well607b => .b
  | .well800a => .a
  | .well800b => .b
  | .well1024a => .a
  | .well1024b => .b
  | .well19937a => .a
  | .well19937b => .b
  | .well19937c => .c
  | .well21701a => .a
  | .well23209a => .a
  | .well23209b => .b
  | .well44497a => .a
  | .well44497b => .b

/-- The reference constant the source gives (R138, R114): four of seventeen. -/
def VariantName.reference : VariantName → Option Word
  | .well512a => some 0x2b3fe99e
  | .well521a => none
  | .well521b => none
  | .well607a => none
  | .well607b => none
  | .well800a => none
  | .well800b => none
  | .well1024a => some 0xd07f528c
  | .well1024b => none
  | .well19937a => some 0xb33a2cd5
  | .well19937b => none
  | .well19937c => none
  | .well21701a => none
  | .well23209a => none
  | .well23209b => none
  | .well44497a => none
  | .well44497b => some 0x9406547b

/-- All seventeen, in the order of R138. -/
def VariantName.all : List VariantName :=
  [.well512a, .well521a, .well521b, .well607a, .well607b, .well800a, .well800b, .well1024a, .well1024b,
    .well19937a, .well19937b, .well19937c, .well21701a, .well23209a, .well23209b, .well44497a, .well44497b]

/-- A number of any size brought into `-31 .. 31`; every value of the range is reached. -/
def openShift (x : Nat) : Int := (x % 63 : Nat) - 31

/-- The descriptor of a named variant: its tag is fixed by its name, everything else is OPEN (R138, log 2). It passes
`WF` whatever the open values are, and every descriptor of this name and tag that passes `WF` arises from some values of
them. -/
def variantDescriptor (v : VariantName) : Descriptor :=
  let r := Config.sizePred v + 1
  let n := 3 + Config.tapExtra v % 3
  { name := some v
    r := r
    n := n
    P := (List.range n).map fun j => ((Config.tapOffset v j % r : Nat) : Int)
    K := (List.range n).map fun j => openShift (Config.shiftConst v j)
    w := ((Config.writeOffset v % r : Nat) : Int)
    tag := v.tag
    kt := openShift (Config.temperConst v)
    tstore := Config.storeBack v }

/-- A descriptor together with the proof of `WF(D)`: "A model takes `D` together with a proof of `WF(D)` (raw record, decidable
check, subtype)" (R136, D25). An instance exists only for one of these. -/
structure CheckedDescriptor extends Descriptor where
  ok : toDescriptor.wf = true
  deriving DecidableEq, Repr

theorem openShift_legal (x : Nat) : ShiftLegal (openShift x) := by unfold openShift ShiftLegal; omega

/-- The table's descriptors pass the check (R136, R138), whatever the OPEN values are (log 2). -/
theorem variantDescriptor_wf (v : VariantName) : (variantDescriptor v).wf = true := by
  have below : ∀ x : Nat, (0 : Int) ≤ ((x % (Config.sizePred v + 1) : Nat) : Int) ∧
      ((x % (Config.sizePred v + 1) : Nat) : Int) < ((Config.sizePred v + 1 : Nat) : Int) := fun x =>
    ⟨Int.natCast_nonneg _, Int.ofNat_lt.mpr (Nat.mod_lt x (Nat.succ_pos _))⟩
  simp only [Descriptor.wf, Bool.and_eq_true, decide_eq_true_eq, List.all_eq_true]
  simp only [variantDescriptor, List.mem_map, List.length_map, List.length_range]
  refine ⟨⟨⟨⟨⟨by omega, by omega, by omega, trivial, trivial⟩, ?_⟩, below _⟩, ?_⟩, openShift_legal _⟩
  · rintro _ ⟨j, -, rfl⟩
    exact below _
  · rintro _ ⟨j, -, rfl⟩
    exact openShift_legal _

/-- The descriptor this system was built with (R137: hardwired at build time). -/
def builtDescriptor : CheckedDescriptor :=
  { toDescriptor := variantDescriptor Config.variant, ok := variantDescriptor_wf Config.variant }

/-- The stored form (R140): 6-bit fields for `K[j]` and `kt`, 2-bit `tag`, 3-bit `n`, one bit `tstore`, plain unsigned
integers for `r`, `P[j]`, `w`. No command observes it. -/
structure StoredDescriptor where
  name : Option VariantName
  r : Nat
  n : BitVec 3
  P : List Nat
  K : List (BitVec 6)
  w : Nat
  tag : BitVec 2
  kt : BitVec 6
  tstore : BitVec 1
  deriving DecidableEq, Repr

/-- The tag's code `TF` (30_encoding.md R67). -/
def tagCode : Tag → BitVec 2
  | .none => 0#2
  | .a => 1#2
  | .b => 2#2
  | .c => 3#2

/-- The tag a code `TF` stands for (R67): all four codes are used. -/
def tagOfCode (tf : BitVec 2) : Tag :=
  if tf = 0#2 then .none else if tf = 1#2 then .a else if tf = 2#2 then .b else .c

/-- The bits a descriptor is held as (R140). -/
def Descriptor.store (d : Descriptor) : StoredDescriptor :=
  { name := d.name
    r := d.r
    n := BitVec.ofNat 3 d.n
    P := d.P.map Int.toNat
    K := d.K.map Machine.fieldOfShift
    w := d.w.toNat
    tag := tagCode d.tag
    kt := Machine.fieldOfShift d.kt
    tstore := BitVec.ofBool d.tstore }

/-- The descriptor those bits stand for (R140). -/
def StoredDescriptor.load (b : StoredDescriptor) : Descriptor :=
  { name := b.name
    r := b.r
    n := b.n.toNat
    P := b.P.map Int.ofNat
    K := b.K.map Machine.shiftOfField
    w := (b.w : Int)
    tag := tagOfCode b.tag
    kt := Machine.shiftOfField b.kt
    tstore := b.tstore = 1#1 }

end Sys2Proof
end

