-- ==== Sys2Proof/Machine/State.lean ====
section
/-! DEFINITION. The machine's state as plain data (10_state.md), what arrives and what is answered, and the state after
reset (R30). -/

namespace Sys2Proof.Machine

/-- The ring's words by physical address (20_memory.md R40): cells in strictly rising order of address, none holding the
word an unlisted address reads as (`Ring.wf`, log 4). -/
abbrev Ring := List (Nat × Word)

/-- `PHASE` (R22): "two states only". -/
inductive Phase where
  | unseeded | seeded
  deriving DecidableEq, Repr

/-- The four faults of 60_exceptions.md R150. -/
inductive Cause where
  /-- `PV_NEXT_UNSEEDED` (R151). -/
  | nextUnseeded
  /-- `PV_SEED_SHORT` (R152). -/
  | seedShort
  /-- `PV_SHIFT_RANGE` (R153). -/
  | shiftRange
  /-- `ILLEGAL_COMMAND` (R154). -/
  | illegalCommand
  deriving DecidableEq, Repr

/-- A response's `STATUS` (30_encoding.md R64). -/
inductive Status where
  | ok
  /-- The command raised a fault (codes 1 to 4). -/
  | raised (c : Cause)
  /-- The command was refused because `FAULT` was already 1 (R155). -/
  | faulted
  deriving DecidableEq, Repr

/-- One instance's state (10_state.md R20 to R23), all of it. The number of ring words is `State.desc.r`. -/
structure Instance where
  /-- `S[0 .. r-1]` (R20). -/
  ring : Ring
  /-- `cursor` (R21). -/
  cursor : Nat
  /-- `PHASE` (R22). -/
  phase : Phase
  /-- `FAULT` (R23), sticky. -/
  fault : Bool
  /-- `CAUSE` (R23). -/
  cause : BitVec 4
  deriving DecidableEq, Repr

/-- One transaction that reaches an instance's ports. -/
inductive Input where
  /-- A command word and the words that follow it on the command port of instance `port` (30_encoding.md R60, R70). -/
  | command (port : Nat) (cw : Word) (data : List Word)
  /-- A micro-operation on the ring port (R65), as the engine issues it; no host can send one (log 7). -/
  | ringOp (port : Nat) (rop : BitVec 2) (off : Int) (wdata : Word)
  /-- An operation on the port of shift_xor_recurrence_unit (R66), as the engine issues it (log 7). -/
  | mixOp (port : Nat) (kf : BitVec 6) (v : Word)
  /-- An operation on the port of tempering_xform_a_b_c (R67), as the engine issues it (log 7). -/
  | temperOp (port : Nat) (tf : BitVec 2) (ktf : BitVec 6) (z : Word)
  /-- The reset signal of instance `port` (70_reset_and_hazards.md R180). -/
  | reset (port : Nat)
  deriving DecidableEq, Repr

/-- What the block answers. -/
inductive Reply where
  /-- A command's response (R63): no data when the status is not `ok` (D27). -/
  | response (port : Nat) (status : Status) (data : Option Word)
  /-- What a sub-unit's port returns: `RDATA`, the mixed or the tempered word, or nothing (R65 to R67). -/
  | unitResult (port : Nat) (data : Option Word)
  deriving DecidableEq, Repr

/-- The system (60_exceptions.md R172): its instances, the descriptor they share (log 1), and the host's traffic. -/
structure State where
  /-- `D` with its proof of `WF(D)` (44_variant_table.md R136), fixed when the block is built (R137); no step writes it. -/
  desc : CheckedDescriptor
  /-- The instances `0 .. N_INST - 1`; `N_INST` is the length. -/
  insts : List Instance
  /-- The instance whose port the transaction under way arrived at (log 19). -/
  sel : Nat
  /-- Transactions not yet taken, oldest first (log 5). -/
  pending : List Input
  /-- What has been answered, oldest first; no rule reads it (R28, log 6). -/
  replies : List Reply
  deriving DecidableEq, Repr

/-- Why the machine stops. The faults of the spec are no stops: they are next states (R160). -/
inductive Fault where
  /-- A transaction names an instance the system does not have (R172: numbered `0 .. N_INST - 1`). Raised by every meaning
  through `withPort`. Safe: the model stops where the spec gives no port (log 10). -/
  | noSuchInstance (port : Nat)
  deriving DecidableEq, Repr

/-- Why a step is refused. -/
inductive Refusal where
  /-- An instruction without a meaning; no arm of `exec` answers it. Safe. -/
  | notModelled (mnemonic : String)
  /-- The host stops short of the `LEN` data words of a `SEED`: "has no move for a truncated one" (R187). Raised by `step`
  alone. Safe: the model stops where the instance waits for the host (log 9). -/
  | seedTruncated (missing : Nat)
  deriving DecidableEq, Repr

/-- An instance after reset (10_state.md R30): every word reads `RESET_WORD`. -/
def Instance.reset : Instance :=
  { ring := [], cursor := 0, phase := .unseeded, fault := false, cause := 0#4 }

/-- A system of `nInst` instances built for a descriptor, right after reset, with no traffic. -/
def State.resetOf (d : CheckedDescriptor) (nInst : Nat) : State :=
  { desc := d, insts := List.replicate nInst Instance.reset, sel := 0, pending := [], replies := [] }

/-- The machine right after reset: the built variant and `N_INST` are OPEN (log 2). -/
def State.reset : State := State.resetOf builtDescriptor (Config.extraInstances + 1)

end Sys2Proof.Machine
end

