-- ==== Sys2Proof/Machine/Flags.lean ====
section
/-! DEFINITION. The status flags: the codes of `CAUSE` and `STATUS`, and what sets `PHASE`, `FAULT` and `CAUSE`. -/

namespace Sys2Proof.Machine

/-- The code latched in `CAUSE` (60_exceptions.md R150). -/
def Cause.code : Cause → BitVec 4
  | .nextUnseeded => 1#4
  | .seedShort => 2#4
  | .shiftRange => 3#4
  | .illegalCommand => 4#4

/-- The 4-bit `STATUS` (30_encoding.md R64). -/
def Status.code : Status → BitVec 4
  | .ok => 0#4
  | .raised c => c.code
  | .faulted => 5#4

/-- The bit of `PHASE` (10_state.md R22). -/
def Phase.bit : Phase → BitVec 1
  | .unseeded => 0#1
  | .seeded => 1#1

/-- `FAULT <- 1; CAUSE <- code` (R160). An instance that already holds a fault keeps it: `CAUSE` "is never overwritten"
(R163, log 8). -/
def Instance.latch (c : Cause) (g : Instance) : Instance :=
  if g.fault then g else { g with fault := true, cause := c.code }

/-- `PHASE <- Seeded` (R101). -/
def Instance.markSeeded (g : Instance) : Instance := { g with phase := .seeded }

end Sys2Proof.Machine
end

