-- ==== Sys2Proof/Machine/Ops.lean ====
section
/-! DEFINITION. The named operations: the ring's words, the four micro-operations on an instance, the answers, fault entry
and the return from it (reset). -/

namespace Sys2Proof.Machine

/-- `RESET_WORD` (10_state.md R30): what a ring word reads as after reset, hence what an unlisted address reads as. -/
def resetWord : Word := 0

/-- The word at a physical address. -/
def Ring.read : Ring → Nat → Word
  | [], _ => resetWord
  | (b, u) :: m, a => if a = b then u else Ring.read m a

/-- The cells in front of `m` for the word `v` at address `a`: none when `v` is what an unlisted address reads as. -/
def Ring.cell (a : Nat) (v : Word) (m : Ring) : Ring := if v = resetWord then m else (a, v) :: m

/-- Store a word at a physical address, keeping the canonical form. -/
def Ring.write : Ring → Nat → Word → Ring
  | [], a, v => Ring.cell a v []
  | (b, u) :: m, a, v =>
    if a < b then Ring.cell a v ((b, u) :: m)
    else if a = b then Ring.cell a v m
    else (b, u) :: Ring.write m a v

/-- Every address is at least `lo` and below `r`, addresses rise, and no cell holds `resetWord`. -/
def Ring.wfFrom (lo r : Nat) : Ring → Bool
  | [] => true
  | (b, u) :: m => decide (lo ≤ b) && decide (b < r) && decide (u ≠ resetWord) && Ring.wfFrom (b + 1) r m

/-- The canonical form of a ring of `r` words. -/
def Ring.wf (r : Nat) (m : Ring) : Bool := Ring.wfFrom 0 r m

/-- `AT(i)` (41_statering.md R91). -/
def Instance.readAt (r : Nat) (g : Instance) (off : Int) : Word := g.ring.read (phys r g.cursor off)

/-- `SET(i, v)` (R92). -/
def Instance.writeAt (r : Nat) (g : Instance) (off : Int) (v : Word) : Instance :=
  { g with ring := g.ring.write (phys r g.cursor off) v }

/-- `ADVANCE` (R93): `cursor <- (cursor + 1) mod r`. -/
def Instance.advance (r : Nat) (g : Instance) : Instance := { g with cursor := (g.cursor + 1) % r }

/-- `CLRCUR` (R94): `cursor <- 0`. -/
def Instance.clrcur (g : Instance) : Instance := { g with cursor := 0 }

/-- `SET(i, v)` for the words of a list at the offsets `i, i+1, ...` (the loop of R101). -/
def Instance.load (r : Nat) : Nat → List Word → Instance → Instance
  | _, [], g => g
  | i, v :: vs, g => Instance.load r (i + 1) vs (g.writeAt r i v)

/-- Put an instance's new state in its place; no other instance is touched (20_memory.md R49). -/
def State.putInst (s : State) (g : Instance) : State := { s with insts := s.insts.set s.sel g }

/-- `respond(status, data)` (30_encoding.md R63) on the selected instance's port. -/
def State.respond (s : State) (status : Status) (data : Option Word) : State :=
  { s with replies := s.replies ++ [.response s.sel status data] }

/-- What a sub-unit's port returns (R65 to R67). -/
def State.unitReply (s : State) (data : Option Word) : State :=
  { s with replies := s.replies ++ [.unitResult s.sel data] }

/-- The outcomes of this machine. -/
abbrev Result := Host.Outcome State Fault Refusal

/-- Run on the selected instance; a number no instance has is a stop (log 10). -/
def withPort (s : State) (f : Instance → Result) : Result :=
  match s.insts[s.sel]? with
  | none => .fault (.noSuchInstance s.sel)
  | some g => f g

/-- FAULT ENTRY (60_exceptions.md R160): latch the cause, respond `(code, no data)`, write nothing else. `g` is the selected
instance as it was before the command (R161). -/
def raise (c : Cause) (g : Instance) (s : State) : Result :=
  .next ((s.putInst (g.latch c)).respond (.raised c) none)

/-- A command other than `MIN`, `MAX`, `SIZE`: refused with `FAULTED`, changing no state, while `FAULT = 1` (R155). -/
def hostGate (s : State) (f : Instance → Result) : Result :=
  withPort s fun g => if g.fault then .next (s.respond .faulted none) else f g

/-- THE RETURN (R162): "The only way out of `FAULT = 1` is reset". The reset event of the selected instance
(70_reset_and_hazards.md R180): every piece of its state takes its reset value; no response. -/
def resetSignal (s : State) : Result := withPort s fun _ => .next (s.putInst Instance.reset)

/-- A format H word that selects no operation (R154), after the `FAULTED` test (R159 tests 2 and 3). -/
def illegalCommand (s : State) : Result := hostGate s fun g => raise .illegalCommand g s

/-- The equality of R32 over `r` words: physical words and cursors; not `PHASE`, `FAULT` or `CAUSE`. -/
def sameValue (r : Nat) (g h : Instance) : Bool :=
  (List.range r).all (fun j => g.ring.read j == h.ring.read j) && g.cursor == h.cursor

/-- Building a system (44_variant_table.md R136, 60_exceptions.md R156): a descriptor that fails `WF` builds nothing. -/
def State.build (d : Descriptor) (nInst : Nat) : Option State :=
  if h : d.wf = true ∧ 1 ≤ nInst then some (State.resetOf { toDescriptor := d, ok := h.1 } nInst) else none

end Sys2Proof.Machine
end

