-- ==== Sys2Proof/Machine/BitOps.lean ====
section
/-! DEFINITION. shift_xor_recurrence_unit (40_bitops.md): `MIX` and the helper `ISPOW2`. -/

namespace Sys2Proof.Machine

/-- `MIX(v, k)` (R80); `none` is `raise PV_SHIFT_RANGE` (R82): no masking, no clamping, no value. -/
def mix (v : Word) (k : Int) : Option Word :=
  if 32 ≤ k ∨ k ≤ -32 then none
  else if k = 0 then some v
  else if 0 < k then some (v ^^^ shl v k.toNat)
  else some (v ^^^ shr v (-k).toNat)

/-- `ISPOW2(x)` (R83): no operation calls it; its value at 0 is OPEN, its value elsewhere PRESUMED from general knowledge
(G1, log 16). -/
def isPow2 (x : Word) : Bool := if x = 0 then Config.isPow2Zero else x &&& (x - 1) == 0

/-- A unit's answer: the word it computed, or fault entry when `MIX` raised. -/
def answerUnit (s : State) (result : Option Word) : Result :=
  withPort s fun g =>
    match result with
    | none => raise .shiftRange g s
    | some y => .next (s.unitReply (some y))

/-- `MIX` (R80 to R82). -/
def execMix (v : Word) (k : Int) (s : State) : Result := answerUnit s (mix v k)

end Sys2Proof.Machine
end

