-- ==== Sys2Proof/Machine/Tempering.lean ====
section
/-! DEFINITION. tempering_xform_a_b_c (43_tempering.md). -/

namespace Sys2Proof.Machine

/-- Tags `none` and `a` (R126, R127): the raw word. -/
def temperRaw (z : Word) : Option Word := some z

/-- Tags `b` and `c` (R128, R129): one shift-xor pass. -/
def temperPass (z : Word) (kt : Int) : Option Word := mix z kt

/-- `TEMPER(z)` (R125); `none` is `PV_SHIFT_RANGE` from `MIX`. -/
def temper (d : Descriptor) (z : Word) : Option Word :=
  match d.tag with
  | .none => temperRaw z
  | .a => temperRaw z
  | .b => temperPass z d.kt
  | .c => temperPass z d.kt

/-- `TEMPER.NONE` (R126): the constant is not read. -/
def execTemperNone (z : Word) (_kt : Int) (s : State) : Result := answerUnit s (temperRaw z)

/-- `TEMPER.A` (R127): the constant is not read. -/
def execTemperA (z : Word) (_kt : Int) (s : State) : Result := answerUnit s (temperRaw z)

/-- `TEMPER.B` (R128). -/
def execTemperB (z : Word) (kt : Int) (s : State) : Result := answerUnit s (temperPass z kt)

/-- `TEMPER.C` (R129): the same function as `TEMPER.B`. -/
def execTemperC (z : Word) (kt : Int) (s : State) : Result := answerUnit s (temperPass z kt)

end Sys2Proof.Machine
end

