-- ==== Sys2Proof/Machine/Engine.lean ====
section
/-! DEFINITION. The engine's six host commands and the recurrence (42_engine.md). -/

namespace Sys2Proof.Machine

/-- The fold of R103 after its first stage: `acc <- MIX(acc XOR t[j], K[j])`. -/
def foldTaps : Word → List (Word × Int) → Option Word
  | acc, [] => some acc
  | acc, (t, k) :: rest => (mix (acc ^^^ t) k).bind fun acc' => foldTaps acc' rest

/-- The fold of R103 over the pairs of tap word and shift constant. A descriptor without taps fails `WF` (log 22). -/
def combine : List (Word × Int) → Option Word
  | [] => some 0
  | (t, k) :: rest => (mix t k).bind fun acc => foldTaps acc rest

/-- The tap words `t[j] = AT(P[j])`, all read at the current cursor (R103, 20_memory.md R54). -/
def taps (d : Descriptor) (g : Instance) : List Word := (d.P.take d.n).map (g.readAt d.r)

/-- `RECUR()` (R103); `none` is `PV_SHIFT_RANGE` from the first `MIX` out of range. -/
def recur (d : Descriptor) (g : Instance) : Option Word := combine ((taps d g).zip (d.K.take d.n))

/-- The body of `NEXT` (R102): the instance afterwards and the emitted word; `none` discards the whole command. -/
def nextStep (d : Descriptor) (g : Instance) : Option (Instance × Word) :=
  (recur d g).bind fun z =>
    let g' := (g.writeAt d.r d.w z).advance d.r
    (temper d z).bind fun y =>
      some (if d.storesBack then g'.writeAt d.r (d.w - 1) y else g', y)

/-- The body of `SEED` (R101), for at least `r` words: `CLRCUR`, `SET(i, seed[i])`, `PHASE <- Seeded`. -/
def seedInstance (d : Descriptor) (data : List Word) (g : Instance) : Instance :=
  (Instance.load d.r 0 (data.take d.r) g.clrcur).markSeeded

/-- `SEED` (R101): the length check precedes every write. -/
def execSeed (data : List Word) (s : State) : Result :=
  hostGate s fun g =>
    if s.desc.r ≤ data.length then .next ((s.putInst (seedInstance s.desc.toDescriptor data g)).respond .ok (some 0))
    else raise .seedShort g s

/-- `NEXT` (R102) with a given descriptor. No system exists for one that fails `WF` (44_variant_table.md R136); for such a
descriptor this says "what `60_exceptions.md` rule R153 would do" (95_test_vectors.md V178, V179). -/
def nextWith (d : Descriptor) (s : State) : Result :=
  hostGate s fun g =>
    match g.phase with
    | .unseeded => raise .nextUnseeded g s
    | .seeded =>
      match nextStep d g with
      | none => raise .shiftRange g s
      | some (g', y) => .next ((s.putInst g').respond .ok (some y))

/-- `NEXT` (R102). -/
def execNext (s : State) : Result := nextWith s.desc.toDescriptor s

/-- `MIN` (R104): answers in every `PHASE` and also when `FAULT = 1`. -/
def execMin (s : State) : Result := withPort s fun _ => .next (s.respond .ok (some 0x00000000))

/-- `MAX` (R105): answers in every `PHASE` and also when `FAULT = 1`. -/
def execMax (s : State) : Result := withPort s fun _ => .next (s.respond .ok (some 0xFFFFFFFF))

/-- `zext_32(r)` (R106, 30_encoding.md R63). DESIGN CHOICE (log 27): for `r >= 2^32`, which `WF` admits, the spec names no word
and the data is a free value. -/
def sizeWord (r : Nat) : Word := if r < 2 ^ 32 then BitVec.ofNat 32 r else Config.oversize r

/-- `SIZE` (R106): `zext_32(D.r)`, in every `PHASE` and also when `FAULT = 1` (10_state.md R25). -/
def execSize (s : State) : Result := withPort s fun _ => .next (s.respond .ok (some (sizeWord s.desc.r)))

/-- `EQ` (R107). -/
def execEq (peer : BitVec 28) (s : State) : Result :=
  hostGate s fun g =>
    match s.insts[peer.toNat]? with
    | none => raise .illegalCommand g s
    | some h => .next (s.respond .ok (some (if sameValue s.desc.r g h then 1 else 0)))

end Sys2Proof.Machine
end

