-- ==== Sys2Proof/Machine/StateRing.lean ====
section
/-! DEFINITION. StateRing_circular_buffer (41_statering.md): the four micro-operations. None has a fault, for any offset,
and none reads `FAULT` (log 8). -/

namespace Sys2Proof.Machine

/-- `AT` (R91). -/
def execAt (off : Int) (s : State) : Result :=
  withPort s fun g => .next (s.unitReply (some (g.readAt s.desc.r off)))

/-- `SET` (R92). -/
def execSet (off : Int) (v : Word) (s : State) : Result :=
  withPort s fun g => .next ((s.putInst (g.writeAt s.desc.r off v)).unitReply none)

/-- `ADVANCE` (R93). -/
def execAdvance (s : State) : Result :=
  withPort s fun g => .next ((s.putInst (g.advance s.desc.r)).unitReply none)

/-- `CLRCUR` (R94). -/
def execClrcur (s : State) : Result :=
  withPort s fun g => .next ((s.putInst g.clrcur).unitReply none)

end Sys2Proof.Machine
end

