-- ==== Sys2Proof/Machine/Dispatch.lean ====
section
/-! DEFINITION. exec: one arm per constructor of Instr. -/

namespace Sys2Proof.Machine

/-- The meaning of each instruction. -/
def exec (i : Instr) (s : State) : Host.Outcome State Fault Refusal :=
  match i with
  | .seed data => Sys2Proof.Machine.execSeed data s
  | .next => Sys2Proof.Machine.execNext s
  | .min => Sys2Proof.Machine.execMin s
  | .max => Sys2Proof.Machine.execMax s
  | .size => Sys2Proof.Machine.execSize s
  | .eq peer => Sys2Proof.Machine.execEq peer s
  | .ringAt off => Sys2Proof.Machine.execAt off s
  | .ringSet off v => Sys2Proof.Machine.execSet off v s
  | .advance => Sys2Proof.Machine.execAdvance s
  | .clrcur => Sys2Proof.Machine.execClrcur s
  | .mix v k => Sys2Proof.Machine.execMix v k s
  | .temperNone z kt => Sys2Proof.Machine.execTemperNone z kt s
  | .temperA z kt => Sys2Proof.Machine.execTemperA z kt s
  | .temperB z kt => Sys2Proof.Machine.execTemperB z kt s
  | .temperC z kt => Sys2Proof.Machine.execTemperC z kt s

end Sys2Proof.Machine
end

