-- ==== Sys2Proof/Decode.lean ====
section
/-! DEFINITION. The decoders of the four formats (30_encoding.md R60 to R70), total and rejecting by name, and the encoder
written from the same tables. -/

namespace Sys2Proof

/-- Why a format H word selects no operation (R69 (a), (b), (c)). -/
inductive Illegal where
  /-- (a) `OPC` is `0x0` or `0x7 .. 0xF`. -/
  | reservedOpcode (opc : BitVec 4)
  /-- (b) `NEXT`, `MIN`, `MAX` or `SIZE` with a non-zero `ARG`. -/
  | nonzeroArg (opc : BitVec 4) (arg : BitVec 28)
  /-- (c) `EQ` with `PEER >= N_INST`. -/
  | noSuchPeer (peer : BitVec 28)
  deriving DecidableEq, Repr

/-- What the words on a command port read as. `rest` are the words after the command's own. -/
inductive Decoded where
  | instr (i : Instr) (rest : List Word)
  | illegal (why : Illegal) (rest : List Word)
  /-- A `SEED` of which `missing` data words are not there (70_reset_and_hazards.md R187). -/
  | truncated (missing : Nat)
  deriving DecidableEq, Repr

/-- A one-word command whose `ARG` must be zero (R62, R69 (b)). -/
def decodePlain (i : Instr) (opc : BitVec 4) (arg : BitVec 28) (rest : List Word) : Decoded :=
  if arg = 0#28 then .instr i rest else .illegal (.nonzeroArg opc arg) rest

/-- `SEED`: the command word fixes the length before any data word is read (R70). -/
def decodeSeed (len : Nat) (words : List Word) : Decoded :=
  if len ≤ words.length then .instr (.seed (words.take len)) (words.drop len)
  else .truncated (len - words.length)

/-- `EQ`: the verdict depends on `N_INST` (R69 (c)). -/
def decodeEq (nInst : Nat) (peer : BitVec 28) (rest : List Word) : Decoded :=
  if nInst ≤ peer.toNat then .illegal (.noSuchPeer peer) rest else .instr (.eq peer) rest

/-- The opcode map of format H (R61), on a command word and the words after it. -/
def decodeHost (nInst : Nat) (cw : Word) (rest : List Word) : Decoded :=
  let opc := Machine.cwOpc cw
  let arg := Machine.cwArg cw
  if opc = 1#4 then decodeSeed arg.toNat rest
  else if opc = 2#4 then decodePlain .next opc arg rest
  else if opc = 3#4 then decodePlain .min opc arg rest
  else if opc = 4#4 then decodePlain .max opc arg rest
  else if opc = 5#4 then decodePlain .size opc arg rest
  else if opc = 6#4 then decodeEq nInst arg rest
  else .illegal (.reservedOpcode opc) rest

/-- Format R (R65): all four codes are used, every `OFF` is legal. -/
def decodeRing (rop : BitVec 2) (off : Int) (wdata : Word) : Instr :=
  if rop = 0#2 then .ringAt off
  else if rop = 1#2 then .ringSet off wdata
  else if rop = 2#2 then .advance
  else .clrcur

/-- Format M (R66): the field's value is the shift amount; `100000` reads as -32, which `MIX` refuses (R69 (d)). -/
def decodeMix (kf : BitVec 6) (v : Word) : Instr := .mix v (Machine.shiftOfField kf)

/-- Format T (R67): all four codes are used. -/
def decodeTemper (tf : BitVec 2) (ktf : BitVec 6) (z : Word) : Instr :=
  match tagOfCode tf with
  | .none => .temperNone z (Machine.shiftOfField ktf)
  | .a => .temperA z (Machine.shiftOfField ktf)
  | .b => .temperB z (Machine.shiftOfField ktf)
  | .c => .temperC z (Machine.shiftOfField ktf)

/-- The four ports' decoders as one. -/
def decode (nInst : Nat) : Encoded → Decoded
  | .host cw data => decodeHost nInst cw data
  | .ring rop off wdata => .instr (decodeRing rop off wdata) []
  | .mix kf v => .instr (decodeMix kf v) []
  | .temper tf ktf z => .instr (decodeTemper tf ktf z) []

/-- The encoder (R61, R65 to R67, R70). An operand a code does not use is sent as zero. DESIGN CHOICE (log 28): a `SEED` of 2^28
words or more has no command word (R61, R62) and is not well formed; here it gets `LEN` modulo 2^28, followed by all its
words. -/
def encode : Instr → Encoded
  | .seed data => .host (Machine.cwMake 1#4 (BitVec.ofNat 28 data.length)) data
  | .next => .host (Machine.cwMake 2#4 0#28) []
  | .min => .host (Machine.cwMake 3#4 0#28) []
  | .max => .host (Machine.cwMake 4#4 0#28) []
  | .size => .host (Machine.cwMake 5#4 0#28) []
  | .eq peer => .host (Machine.cwMake 6#4 peer) []
  | .ringAt off => .ring 0#2 off 0
  | .ringSet off v => .ring 1#2 off v
  | .advance => .ring 2#2 0 0
  | .clrcur => .ring 3#2 0 0
  | .mix v k => .mix (Machine.fieldOfShift k) v
  | .temperNone z kt => .temper (tagCode .none) (Machine.fieldOfShift kt) z
  | .temperA z kt => .temper (tagCode .a) (Machine.fieldOfShift kt) z
  | .temperB z kt => .temper (tagCode .b) (Machine.fieldOfShift kt) z
  | .temperC z kt => .temper (tagCode .c) (Machine.fieldOfShift kt) z

/-- What a port carries for a table word of `nbits` bits, every other operand zero (log 11): 32 bits are a command word,
followed by `LEN` zero words for `SEED`; 6 bits, or a byte whose bits 7:2 are not all zero, are the field of format M;
other words of at most 8 bits are the code of format R. -/
def tableWord (nbits w : Nat) : Encoded :=
  if 8 < nbits then
    let cw := BitVec.ofNat 32 w
    .host cw (if Machine.cwOpc cw = 1#4 then List.replicate (Machine.cwArg cw).toNat 0 else [])
  else if nbits = 6 ∨ 4 ≤ w then .mix (BitVec.ofNat 6 w) 0
  else .ring (BitVec.ofNat 2 w) 0 0

/-- The instruction the decoder reads from a table word. `N_INST` is taken as 2^28, so that every `PEER` exists; the machine
itself decodes with the system's own `N_INST`. -/
def decodeTableWord (nbits w : Nat) : Option Instr :=
  match decode (2 ^ 28) (tableWord nbits w) with
  | .instr i _ => some i
  | .illegal _ _ => none
  | .truncated _ => none

end Sys2Proof
end

