-- ==== Sys2Proof/Machine/Fetch.lean ====
section
/-! DEFINITION. Taking the next transaction: what the oldest pending input is, and the state in which it runs. -/

namespace Sys2Proof.Machine

/-- What the oldest pending input asks for. -/
inductive Fetched where
  /-- Nothing is pending: the instances are idle and keep all their state (60_exceptions.md R175). -/
  | idle
  /-- An operation, and the state in which it runs. -/
  | run (i : Instr) (s : State)
  /-- A command word that selects no operation (30_encoding.md R69). -/
  | illegal (why : Illegal) (s : State)
  /-- A reset signal. -/
  | reset (s : State)
  /-- A `SEED` short of data words (70_reset_and_hazards.md R187). -/
  | truncated (missing : Nat)
  deriving DecidableEq, Repr

/-- `N_INST` (60_exceptions.md R172). -/
def State.nInst (s : State) : Nat := s.insts.length

/-- Words left on a command port after a command's own: "the next word on the port is again a command word" (R70, log 20). -/
def requeue (port : Nat) (left : List Word) (rest : List Input) : List Input :=
  match left with
  | [] => rest
  | cw :: data => .command port cw data :: rest

/-- The transaction is taken: its port is selected, the queue is what remains. -/
def State.accept (s : State) (port : Nat) (rest : List Input) : State := { s with sel := port, pending := rest }

/-- What a command port's words ask for (R60 to R62, R69, R70). -/
def fetchCommand (s : State) (port : Nat) (cw : Word) (data : List Word) (rest : List Input) : Fetched :=
  match decodeHost s.nInst cw data with
  | .instr i left => .run i (s.accept port (requeue port left rest))
  | .illegal why left => .illegal why (s.accept port (requeue port left rest))
  | .truncated n => .truncated n

/-- Take the oldest pending input. -/
def fetch (s : State) : Fetched :=
  match s.pending with
  | [] => .idle
  | .command port cw data :: rest => fetchCommand s port cw data rest
  | .ringOp port rop off wdata :: rest => .run (decodeRing rop off wdata) (s.accept port rest)
  | .mixOp port kf v :: rest => .run (decodeMix kf v) (s.accept port rest)
  | .temperOp port tf ktf z :: rest => .run (decodeTemper tf ktf z) (s.accept port rest)
  | .reset port :: rest => .reset (s.accept port rest)

/-- The input that carries an encoded operation to an instance's port. -/
def Input.ofEncoded (port : Nat) : Encoded → Input
  | .host cw data => .command port cw data
  | .ring rop off wdata => .ringOp port rop off wdata
  | .mix kf v => .mixOp port kf v
  | .temper tf ktf z => .temperOp port tf ktf z

/-- The state with one more transaction in front of the queue. -/
def State.push (s : State) (x : Input) : State := { s with pending := x :: s.pending }

end Sys2Proof.Machine
end

