-- ==== Sys2Proof/Machine/Step.lean ====
section
/-! DEFINITION. One step: the oldest pending transaction is taken and performed atomically (42_engine.md R100). -/

namespace Sys2Proof.Machine

/-- One transaction, one step. -/
def step (s : State) : Host.Outcome State Fault Refusal :=
  match fetch s with
  | .idle => .next s
  | .run i t => exec i t
  | .illegal _ t => illegalCommand t
  | .reset t => resetSignal t
  | .truncated n => .refused (.seedTruncated n)

/-- The state with a table word as the next transaction of instance 0 (log 11): nothing else changes. -/
def State.withFetchWord (s : State) (nbits w : Nat) : State := s.push (Input.ofEncoded 0 (tableWord nbits w))

end Sys2Proof.Machine
end

