-- ==== Sys2Proof/Machine/Assembler.lean ====
section
/-! DEFINITION. The textual commands and pseudo-instructions of 30_encoding.md R71 and R72, as data. -/

namespace Sys2Proof.Machine

/-- One line of a program. -/
inductive Line where
  | seed (words : List Word)
  | next
  | min
  | max
  | size
  | eq (peer : BitVec 28)
  /-- `.word`: a literal command word, "used only to show illegal encodings". -/
  | word (cw : Word)
  /-- `seed.fill <count>, <word>` (R72). -/
  | seedFill (count : Nat) (w : Word)
  /-- `seed.ones` (R72): `seed.fill r, 1`. -/
  | seedOnes
  /-- `skip <count>` (R72): `<count>` times `next`. -/
  | skip (count : Nat)
  /-- The reset signal of the programs of 95_test_vectors.md section 4; it is no command (R180). -/
  | reset
  deriving DecidableEq, Repr

/-- A command of instance `port` as a transaction. -/
def Line.one (port : Nat) (i : Instr) : List Input := [Input.ofEncoded port (encode i)]

/-- The transactions a line for instance `port` stands for; `r` is the ring size of the variant. DESIGN CHOICE (log 28): a
`seed`, `seed.fill` or `seed.ones` (R71, R72) of 2^28 words or more has no `LEN` of 28 bits; it is sent as `encode` says, with
`LEN` modulo 2^28, and its surplus words read as further commands. -/
def Line.inputs (r port : Nat) : Line → List Input
  | .seed words => Line.one port (.seed words)
  | .next => Line.one port .next
  | .min => Line.one port .min
  | .max => Line.one port .max
  | .size => Line.one port .size
  | .eq peer => Line.one port (.eq peer)
  | .word cw => [.command port cw []]
  | .seedFill count w => Line.one port (.seed (List.replicate count w))
  | .seedOnes => Line.one port (.seed (List.replicate r 1))
  | .skip count => (List.replicate count (Line.one port .next)).flatten
  | .reset => [.reset port]

/-- A program: lines with their instance prefix (default `g0` is 0), in textual order. -/
def assemble (r : Nat) (program : List (Nat × Line)) : List Input :=
  program.flatMap fun pl => Line.inputs r pl.1 pl.2

end Sys2Proof.Machine
end

