-- ==== Sys2Proof/Safety.lean ====
section
/-! DEFINITION. What counts as a good state and a safe run, in the terms the statements use, and the two properties the
source asks of a descriptor (assumptions by name, never theorems). -/

namespace Sys2Proof

/-- The operations of format H (R61), the only ones a host sees. -/
def Instr.isCommand : Instr → Bool
  | .seed _ => true
  | .next => true
  | .min => true
  | .max => true
  | .size => true
  | .eq _ => true
  | .ringAt _ => false
  | .ringSet _ _ => false
  | .advance => false
  | .clrcur => false
  | .mix _ _ => false
  | .temperNone _ _ => false
  | .temperA _ _ => false
  | .temperB _ _ => false
  | .temperC _ _ => false

end Sys2Proof

namespace Sys2Proof.Machine

/-- A good instance of a ring of `r` words (10_state.md R31): the ring is canonical with every address below `r`, the cursor
is in range, no cause without a fault, and a latched cause is one of the four codes (60_exceptions.md R150). -/
structure Instance.Ok (r : Nat) (g : Instance) : Prop where
  ring : Ring.wf r g.ring = true
  cursor : g.cursor < r
  quiet : g.fault = false → g.cause = 0#4
  latched : g.fault = true → ∃ c : Cause, g.cause = c.code

/-- The invariant of the machine: a checked descriptor (44_variant_table.md R136; its type says so too), a selected instance
that exists (log 19), good instances. -/
structure State.Inv (s : State) : Prop where
  desc : s.desc.wf = true
  sel : s.sel < s.nInst
  insts : ∀ g ∈ s.insts, g.Ok s.desc.r

/-- What a host can send (30_encoding.md R65: "The host cannot issue format R operations"): commands and the reset
signal. -/
def Input.fromHost : Input → Bool
  | .command _ _ _ => true
  | .ringOp _ _ _ _ => false
  | .mixOp _ _ _ => false
  | .temperOp _ _ _ _ => false
  | .reset _ => true

/-- The instance an input is for. -/
def Input.port : Input → Nat
  | .command p _ _ => p
  | .ringOp p _ _ _ => p
  | .mixOp p _ _ => p
  | .temperOp p _ _ _ => p
  | .reset p => p

/-- An instance no host traffic has seeded still holds its reset ring and cursor (10_state.md R30, R33). -/
def Instance.FreshUnlessSeeded (g : Instance) : Prop := g.phase = .unseeded → g.ring = [] ∧ g.cursor = 0

/-- The word `MIX` computes for a legal amount, by the arithmetic of 00_scope.md R9. -/
def mixValue (v : Word) (k : Int) : Word :=
  if k = 0 then v
  else if 0 < k then v ^^^ BitVec.ofNat 32 (v.toNat * 2 ^ k.toNat % 2 ^ 32)
  else v ^^^ BitVec.ofNat 32 (v.toNat / 2 ^ (-k).toNat)

/-- The other order of `NEXT` that 42_engine.md R117 allows: temper before the advance, one write of the final word at
offset `w`, then advance. -/
def nextStepOnce (d : Descriptor) (g : Instance) : Option (Instance × Word) :=
  (recur d g).bind fun z =>
    (temper d z).bind fun y =>
      some ((g.writeAt d.r d.w (if d.storesBack then y else z)).advance d.r, y)

/-- `k` successive `NEXT`s of a seeded instance: where it ends and its outputs, first to last. -/
def runNext (d : Descriptor) : Nat → Instance → Option (Instance × List Word)
  | 0, g => some (g, [])
  | k + 1, g => (nextStep d g).bind fun p => (runNext d k p.1).map fun q => (q.1, p.2 :: q.2)

/-- `k` successive `ADVANCE`s. -/
def advanceTimes (r : Nat) : Nat → Instance → Instance
  | 0, g => g
  | k + 1, g => advanceTimes r k (g.advance r)

/-- A reset instance after `seed.ones` (30_encoding.md R72). -/
def onesSeeded (d : Descriptor) : Instance := seedInstance d (List.replicate d.r 1) Instance.reset

/-- Two steps. -/
def stepTwice (s : State) : Result :=
  match step s with
  | .next t => step t
  | .fault f => .fault f
  | .refused r => .refused r

/-- ASSUMPTION BY NAME (42_engine.md R114): the 1,000,000,000th output after `seed.ones` is the published constant. The spec
says that no instantiation of its rules meets it (93_implementation_defined.md G2). DESIGN CHOICE (log 23): for the thirteen
variants whose constant the source does not give (91_not_in_source.md N9) `reference` is `none` and this holds vacuously; it then
says nothing of the hardware. -/
def ReferenceConforms (v : VariantName) : Prop :=
  ∀ c, v.reference = some c →
    ∃ g ys, runNext (variantDescriptor v) 1000000000 (onesSeeded (variantDescriptor v)) = some (g, ys)
      ∧ ys.getLast? = some c

/-- ASSUMPTION BY NAME (R115): within `2r` steps from `seed.ones` the outputs are neither constant nor periodic with a
period of at most `r`. -/
def NonDegenerate (d : Descriptor) : Prop :=
  ∃ g ys, runNext d (2 * d.r) (onesSeeded d) = some (g, ys)
    ∧ (∃ x ∈ ys, ∃ y ∈ ys, x ≠ y)
    ∧ ∀ p, 1 ≤ p → p ≤ d.r → ∃ i, i + p < 2 * d.r ∧ ys[i]? ≠ ys[i + p]?

end Sys2Proof.Machine
end

