-- ==== Sys2Proof/Certificates/Slice0/Obligations.lean ====
section
/-! DEFINITION. The statements for the provers, file by file of spec/. "The selected instance" is `s.insts[s.sel]?`; a record
update `{ s with … }` names everything that changes, so that it is the frame too. -/

open Sys2Proof Sys2Proof.Machine

/-! ### Encodings (30_encoding.md) -/

/-- Words written out from the spec's encodings decode to what they stand for (R61, R65, R66, R67, R70; compare
95_test_vectors.md section 3.10). R69 (d) lists the field `100000` among those that select no operation; that it decodes to
the ill-formed `mix 1 (-32)`, on which `MIX` then raises, is the model's choice (log 21). -/
def Obligations.WrittenOutWordsDecode : Prop :=
  decode 2 (.host 0x10000002#32 [7, 8, 9]) = .instr (.seed [7, 8]) [9]
    ∧ decode 2 (.host 0x20000000#32 []) = .instr .next []
    ∧ decode 2 (.host 0x30000000#32 []) = .instr .min []
    ∧ decode 2 (.host 0x40000000#32 []) = .instr .max []
    ∧ decode 2 (.host 0x50000000#32 []) = .instr .size []
    ∧ decode 2 (.host 0x60000001#32 []) = .instr (.eq 1) []
    ∧ decode 2 (.host 0x60000002#32 []) = .illegal (.noSuchPeer 2) []
    ∧ decode 2 (.host 0x48000000#32 []) = .illegal (.nonzeroArg 4 0x8000000) []
    ∧ decode 2 (.host 0xE0000008#32 []) = .illegal (.reservedOpcode 14) []
    ∧ decode 2 (.ring 0#2 (-2) 0) = .instr (.ringAt (-2)) []
    ∧ decode 2 (.ring 1#2 3 0x22222222#32) = .instr (.ringSet 3 0x22222222#32) []
    ∧ decode 2 (.ring 2#2 0 0) = .instr .advance []
    ∧ decode 2 (.ring 3#2 0 0) = .instr .clrcur []
    ∧ decode 2 (.mix 0b111011#6 1) = .instr (.mix 1 (-5)) []
    ∧ decode 2 (.mix 0b100000#6 1) = .instr (.mix 1 (-32)) []
    ∧ decode 2 (.temper 0#2 0b000000#6 9) = .instr (.temperNone 9 0) []
    ∧ decode 2 (.temper 1#2 0b000111#6 9) = .instr (.temperA 9 7) []
    ∧ decode 2 (.temper 2#2 0b110101#6 9) = .instr (.temperB 9 (-11)) []
    ∧ decode 2 (.temper 3#2 0b001001#6 9) = .instr (.temperC 9 9) []

/-- Every well-formed instruction, every operand at every value its encoding admits: decoding its encoding gives it back,
and the words that follow on a command port are left for the next command (R61, R65 to R67, R70). -/
def Obligations.DecodeEncodeRoundTrip : Prop :=
  ∀ (nInst : Nat) (i : Instr), i.wf nInst = true →
    decode nInst (encode i) = .instr i []
      ∧ ∀ cw data rest, encode i = .host cw data → decodeHost nInst cw (data ++ rest) = .instr i rest

/-- A command word has one meaning: whatever decodes to an instruction is that instruction's own encoding, and the
instruction is well formed (R61, R62, R69, R70). -/
def Obligations.DecodeReadsOnlyEncodings : Prop :=
  ∀ (nInst : Nat) (cw : Word) (data : List Word) (i : Instr) (left : List Word),
    decodeHost nInst cw data = .instr i left →
      i.wf nInst = true ∧ ∃ own, encode i = .host cw own ∧ data = own ++ left

/-- The decoder's verdict (R69 (a), (b), (c)): exactly these words select no operation. -/
def Obligations.IllegalWordsAreExactlyThese : Prop :=
  ∀ (nInst : Nat) (cw : Word) (data : List Word),
    (∃ why left, decodeHost nInst cw data = .illegal why left) ↔
      ((cwOpc cw = 0 ∨ 7 ≤ (cwOpc cw).toNat)
        ∨ ((cwOpc cw = 2 ∨ cwOpc cw = 3 ∨ cwOpc cw = 4 ∨ cwOpc cw = 5) ∧ cwArg cw ≠ 0)
        ∨ (cwOpc cw = 6 ∧ nInst ≤ (cwArg cw).toNat))

/-- Framing of `SEED` (R70): the length comes from the command word alone, the `LEN` data words are consumed whatever the
outcome, and the next word on the port is again a command word. The form of the queue is the model's (logs 5, 20). -/
def Obligations.SeedWordsAreConsumedWhateverTheOutcome : Prop :=
  ∀ (s t : State) (p : Nat) (cw : Word) (data : List Word) (rest : List Input),
    s.pending = .command p cw data :: rest → cwOpc cw = 1 → step s = .next t →
      (cwArg cw).toNat ≤ data.length
        ∧ t.pending =
          (match data.drop (cwArg cw).toNat with
            | [] => rest
            | c :: d => .command p c d :: rest)

/-- The stored form of a checked descriptor loses nothing (44_variant_table.md R140). -/
def Obligations.StoredDescriptorRoundTrip : Prop :=
  ∀ d : Descriptor, d.wf = true → d.store.load = d

/-! ### The descriptor (44_variant_table.md) -/

/-- `WF(D)`, clause by clause (R136), and a system is built exactly for a descriptor that passes it (R136, R156) and at least
one instance (R172). That `State.build` is the check at build time is the model's form (log 24). -/
def Obligations.DescriptorCheckAndBuild : Prop :=
  ∀ (d : Descriptor) (nInst : Nat),
    (d.wf = true ↔
      1 ≤ d.r ∧ 3 ≤ d.n ∧ d.n ≤ 5 ∧ d.P.length = d.n ∧ d.K.length = d.n
        ∧ (∀ p ∈ d.P, 0 ≤ p ∧ p < (d.r : Int)) ∧ 0 ≤ d.w ∧ d.w < (d.r : Int)
        ∧ (∀ k ∈ d.K, -31 ≤ k ∧ k ≤ 31) ∧ -31 ≤ d.kt ∧ d.kt ≤ 31)
      ∧ ((∃ s, State.build d nInst = some s) ↔ d.wf = true ∧ 1 ≤ nInst)

/-- The seventeen descriptors of the table (R138): their names with their tags, the letter of each name and never `none`
(R139), written out in R138's order; every variant is in the table; every descriptor passes `WF` whatever the OPEN values
are. That the OPEN values are brought into `WF`'s ranges is the model's construction (log 2). -/
def Obligations.TableDescriptorsAreWellFormed : Prop :=
  VariantName.all.map (fun v => (v.text, (variantDescriptor v).tag)) =
      [("Well512a", .a), ("Well521a", .a), ("Well521b", .b), ("Well607a", .a), ("Well607b", .b), ("Well800a", .a),
        ("Well800b", .b), ("Well1024a", .a), ("Well1024b", .b), ("Well19937a", .a), ("Well19937b", .b),
        ("Well19937c", .c), ("Well21701a", .a), ("Well23209a", .a), ("Well23209b", .b), ("Well44497a", .a),
        ("Well44497b", .b)]
    ∧ ∀ v : VariantName, v ∈ VariantName.all ∧ (variantDescriptor v).name = some v
      ∧ (variantDescriptor v).wf = true ∧ (variantDescriptor v).tag ≠ .none

/-- No step changes the descriptor or the number of instances (R137, 60_exceptions.md R172). -/
def Obligations.DescriptorIsImmutable : Prop :=
  ∀ s t : State, step s = .next t → t.desc = s.desc ∧ t.insts.length = s.insts.length

/-! ### shift_xor_recurrence_unit (40_bitops.md) -/

/-- `MIX` with a legal amount completes and returns the word of R80, computed by the arithmetic of 00_scope.md R9; nothing
else changes. The unit answering on a port of its own is the model's form (log 7). -/
def Obligations.MixReturnsShiftXor : Prop :=
  ∀ (s : State) (g : Instance) (v : Word) (k : Int),
    s.insts[s.sel]? = some g → -31 ≤ k → k ≤ 31 →
      exec (.mix v k) s = .next { s with replies := s.replies ++ [.unitResult s.sel (some (mixValue v k))] }

/-- A shift amount of magnitude 32 or more, for `MIX` and for the tempering tags that use it: fault entry, no value, no
masking (R82, 60_exceptions.md R153). Raised here on the unit's own port, the model's form (logs 7, 8). -/
def Obligations.ShiftOutOfRangeTakesFaultEntry : Prop :=
  ∀ (s : State) (g : Instance) (v : Word) (k : Int),
    s.insts[s.sel]? = some g → g.fault = false → (32 ≤ k ∨ k ≤ -32) →
      let t : State :=
        { s with
          insts := s.insts.set s.sel { g with fault := true, cause := 3#4 }
          replies := s.replies ++ [.response s.sel (.raised .shiftRange) none] }
      exec (.mix v k) s = .next t ∧ exec (.temperB v k) s = .next t ∧ exec (.temperC v k) s = .next t

/-- `MIX(0, k) = 0` and `MIX(a XOR b, k) = MIX(a, k) XOR MIX(b, k)` (R86). -/
def Obligations.MixIsLinear : Prop :=
  ∀ k : Int, -31 ≤ k → k ≤ 31 →
    mix 0 k = some 0 ∧
      ∀ a b : Word, ∃ x y, mix a k = some x ∧ mix b k = some y ∧ mix (a ^^^ b) k = some (x ^^^ y)

/-- `MIX(., k)` is a bijection on 32-bit words for every legal `k` (R86). -/
def Obligations.MixIsBijective : Prop :=
  ∀ k : Int, -31 ≤ k → k ≤ 31 → ∀ y : Word, ∃ v, mix v k = some y ∧ ∀ v', mix v' k = some y → v' = v

/-! ### StateRing_circular_buffer (41_statering.md, 20_memory.md) -/

/-- `AT` completes for every offset and returns the word at `(cursor + i) mod r`; nothing else changes (R91). The ring
answering on a port of its own is the model's form (log 7). -/
def Obligations.AtReturnsAddressedWord : Prop :=
  ∀ (s : State) (g : Instance) (off : Int), s.insts[s.sel]? = some g →
    exec (.ringAt off) s =
      .next { s with
        replies := s.replies ++
          [.unitResult s.sel (some (Ring.read g.ring (((g.cursor : Int) + off) % (s.desc.r : Int)).toNat))] }

/-- `SET` completes for every offset and writes exactly one ring word, all 32 bits; no other word and nothing else of the
machine changes (R92). The ring answering on a port of its own is the model's form (log 7). -/
def Obligations.SetWritesExactlyOneWord : Prop :=
  ∀ (s : State) (g : Instance) (off : Int) (v : Word),
    s.insts[s.sel]? = some g → Ring.wf s.desc.r g.ring = true →
      ∃ m : Ring, Ring.wf s.desc.r m = true
        ∧ (∀ a, Ring.read m a =
            if a = (((g.cursor : Int) + off) % (s.desc.r : Int)).toNat then v else Ring.read g.ring a)
        ∧ exec (.ringSet off v) s =
          .next { s with
            insts := s.insts.set s.sel { g with ring := m }
            replies := s.replies ++ [.unitResult s.sel none] }

/-- `ADVANCE` completes and moves the cursor by one modulo `r`; no ring word moves; the word that was `AT(i)` is now
`AT(i - 1)`; `r` successive `ADVANCE`s restore the cursor (R93). The ring answering on a port of its own is the model's form
(log 7). -/
def Obligations.AdvanceMovesTheCursorByOne : Prop :=
  ∀ (s : State) (g : Instance), s.insts[s.sel]? = some g →
    exec .advance s =
        .next { s with
          insts := s.insts.set s.sel { g with cursor := (g.cursor + 1) % s.desc.r }
          replies := s.replies ++ [.unitResult s.sel none] }
      ∧ (∀ i : Int, (g.advance s.desc.r).readAt s.desc.r (i - 1) = g.readAt s.desc.r i)
      ∧ (g.cursor < s.desc.r → advanceTimes s.desc.r s.desc.r g = g)

/-- `CLRCUR` completes and clears the cursor, nothing else; it is idempotent; after it `AT(i) = S[i mod r]` (R94). The
ring answering on a port of its own is the model's form (log 7). -/
def Obligations.ClrcurClearsTheCursor : Prop :=
  ∀ (s : State) (g : Instance), s.insts[s.sel]? = some g →
    exec .clrcur s =
        .next { s with
          insts := s.insts.set s.sel { g with cursor := 0 }
          replies := s.replies ++ [.unitResult s.sel none] }
      ∧ g.clrcur.clrcur = g.clrcur
      ∧ (∀ i : Int, g.clrcur.readAt s.desc.r i = Ring.read g.ring (i % (s.desc.r : Int)).toNat)
      ∧ (∀ i : Nat, i < s.desc.r → g.clrcur.readAt s.desc.r i = Ring.read g.ring i)

/-- Every offset reaches a word of the ring, and two offsets reach the same word exactly when they differ by a multiple of
`r` (R91, 20_memory.md R41, R43). -/
def Obligations.OffsetsWrapModuloR : Prop :=
  ∀ (r c : Nat) (i j : Int), 1 ≤ r →
    phys r c i < r ∧ (phys r c i = phys r c j ↔ (r : Int) ∣ i - j)

/-- `SET(i, v)` then `AT(j)` returns `v` when `i - j` is a multiple of `r` and the old word otherwise (R92). -/
def Obligations.SetThenAt : Prop :=
  ∀ (r : Nat) (g : Instance) (i j : Int) (v : Word), 1 ≤ r → Ring.wf r g.ring = true →
    ((r : Int) ∣ i - j → (g.writeAt r i v).readAt r j = v)
      ∧ (¬ (r : Int) ∣ i - j → (g.writeAt r i v).readAt r j = g.readAt r j)

/-! ### The engine's commands (42_engine.md) -/

/-- `SEED` with `LEN >= r` completes: all `r` words are the first `r` data words in order, the cursor is 0, `PHASE` is
`Seeded`; nothing else changes; response `(OK, 0)` (R101). -/
def Obligations.SeedLoadsTheRing : Prop :=
  ∀ (s : State) (g : Instance) (data : List Word),
    s.insts[s.sel]? = some g → g.fault = false → s.desc.r ≤ data.length →
    Ring.wf s.desc.r g.ring = true →
      ∃ m : Ring, Ring.wf s.desc.r m = true
        ∧ (∀ j, j < s.desc.r → data[j]? = some (Ring.read m j))
        ∧ exec (.seed data) s =
          .next { s with
            insts := s.insts.set s.sel { g with ring := m, cursor := 0, phase := .seeded }
            replies := s.replies ++ [.response s.sel .ok (some 0)] }

/-- `SEED` with `LEN < r` on an unfaulted instance: fault entry with code 2, no partial load (60_exceptions.md R152). -/
def Obligations.ShortSeedTakesFaultEntry : Prop :=
  ∀ (s : State) (g : Instance) (data : List Word), s.insts[s.sel]? = some g →
    (exec (.seed data) s =
        .next { s with
          insts := s.insts.set s.sel { g with fault := true, cause := 2#4 }
          replies := s.replies ++ [.response s.sel (.raised .seedShort) none] }
      ↔ g.fault = false ∧ data.length < s.desc.r)

/-- A successful `SEED` "fully replaces prior state" (R101, R112): whatever two instances held before, after `SEED`s whose
first `r` words agree they hold the same ring, cursor and phase; words past the first `r` have no effect. -/
def Obligations.SeedReplacesPriorState : Prop :=
  ∀ (d : Descriptor) (g h : Instance) (data data' : List Word),
    d.wf = true → Ring.wf d.r g.ring = true → Ring.wf d.r h.ring = true →
    d.r ≤ data.length → data.take d.r = data'.take d.r →
      (seedInstance d data g).ring = (seedInstance d data' h).ring
        ∧ (seedInstance d data g).cursor = (seedInstance d data' h).cursor
        ∧ (seedInstance d data g).phase = (seedInstance d data' h).phase

/-- `NEXT` on a seeded, unfaulted instance completes: one ring word is written, relative to the
cursor before the advance, with the tempered word if it is stored back and the raw word otherwise; the cursor advances by
one; every other word and the rest of the machine are unchanged; the response is `(OK, y)` (R102). -/
def Obligations.NextWritesOneWordAndAnswers : Prop :=
  ∀ (s : State) (g : Instance),
    s.insts[s.sel]? = some g → Ring.wf s.desc.r g.ring = true → g.fault = false → g.phase = .seeded →
      ∃ (z y : Word) (m : Ring), recur s.desc.toDescriptor g = some z ∧ temper s.desc.toDescriptor z = some y
        ∧ Ring.wf s.desc.r m = true
        ∧ (∀ a, Ring.read m a =
            if a = (((g.cursor : Int) + s.desc.w) % (s.desc.r : Int)).toNat then
              (if s.desc.storesBack then y else z)
            else Ring.read g.ring a)
        ∧ exec .next s =
          .next { s with
            insts := s.insts.set s.sel { g with ring := m, cursor := (g.cursor + 1) % s.desc.r }
            replies := s.replies ++ [.response s.sel .ok (some y)] }

/-- `NEXT` takes fault entry with code 1 exactly when `FAULT = 0` and `PHASE = Unseeded` (60_exceptions.md R151): no ring
word is written, the cursor does not move, no output word exists. -/
def Obligations.UnseededNextTakesFaultEntry : Prop :=
  ∀ (s : State) (g : Instance), s.insts[s.sel]? = some g →
    (exec .next s =
        .next { s with
          insts := s.insts.set s.sel { g with fault := true, cause := 1#4 }
          replies := s.replies ++ [.response s.sel (.raised .nextUnseeded) none] }
      ↔ g.fault = false ∧ g.phase = .unseeded)

/-- `RECUR` is the left fold of R103: tap `j` meets constant `j`, all taps read at the current cursor (the spec's default of
its decision D7, log 13). -/
def Obligations.RecurrenceIsTheLeftFold : Prop :=
  ∀ (d : Descriptor) (g : Instance) (p k : Int) (ps ks : List Int),
    d.wf = true → d.P = p :: ps → d.K = k :: ks →
      recur d g =
        some ((ps.zip ks).foldl (fun acc pk => mixValue (acc ^^^ g.readAt d.r pk.1) pk.2)
          (mixValue (g.readAt d.r p) k))

/-- `RECUR` is linear over GF(2) in the ring words, at a fixed cursor (R103). -/
def Obligations.RecurrenceIsLinear : Prop :=
  ∀ (d : Descriptor) (g h x : Instance),
    d.wf = true → h.cursor = g.cursor → x.cursor = g.cursor →
    (∀ a, Ring.read x.ring a = Ring.read g.ring a ^^^ Ring.read h.ring a) →
      ∃ u v, recur d g = some u ∧ recur d h = some v ∧ recur d x = some (u ^^^ v)

/-- A checked descriptor never lets `NEXT` raise `PV_SHIFT_RANGE` (40_bitops.md R82, 60_exceptions.md R153). -/
def Obligations.CheckedDescriptorNeverRaisesInNext : Prop :=
  ∀ (d : Descriptor) (g : Instance), d.wf = true → ∃ g' y, nextStep d g = some (g', y)

/-- If `MIX` did raise inside `NEXT`, the whole `NEXT` would be discarded: no write, no advance (R153; 95_test_vectors.md V178,
V179). No system holds a descriptor that raises (R136), so this is about `nextWith`, the command over any descriptor, which
`exec` runs with the system's own. -/
def Obligations.ShiftRangeDiscardsTheWholeNext : Prop :=
  (∀ s : State, exec .next s = nextWith s.desc.toDescriptor s)
    ∧ ∀ (d : Descriptor) (s : State) (g : Instance),
      s.insts[s.sel]? = some g → g.fault = false → g.phase = .seeded →
      (recur d g = none ∨ ∃ z, recur d g = some z ∧ temper d z = none) →
        nextWith d s =
          .next { s with
            insts := s.insts.set s.sel { g with fault := true, cause := 3#4 }
            replies := s.replies ++ [.response s.sel (.raised .shiftRange) none] }

/-- EQUIVALENCE OF THE ORDERS OF `NEXT` (R117): writing the final word once, before the advance, is the same command as
writing `z`, advancing, tempering and overwriting. -/
def Obligations.SingleWriteNextIsEquivalent : Prop :=
  ∀ (d : Descriptor) (g : Instance), d.wf = true → Ring.wf d.r g.ring = true →
    nextStep d g = nextStepOnce d g

/-- The output is a function of the state after the step (R113). -/
def Obligations.OutputIsReadFromThePostState : Prop :=
  ∀ (d : Descriptor) (g g' : Instance) (y : Word),
    d.wf = true → Ring.wf d.r g.ring = true → nextStep d g = some (g', y) →
      ((d.storesBack = true ∨ d.tag = .none ∨ d.tag = .a) → g'.readAt d.r (d.w - 1) = y)
        ∧ (d.storesBack = false → (d.tag = .b ∨ d.tag = .c) → mix (g'.readAt d.r (d.w - 1)) d.kt = some y)

/-- The all-zero ring is a fixed point: every output is 0 and the ring stays zero, for every descriptor (R115). -/
def Obligations.ZeroRingIsAFixedPoint : Prop :=
  ∀ (d : Descriptor) (g : Instance) (k : Nat),
    d.wf = true → Ring.wf d.r g.ring = true → (∀ a, Ring.read g.ring a = 0) →
      ∃ g' ys, runNext d k g = some (g', ys) ∧ ys = List.replicate k 0 ∧ ∀ a, Ring.read g'.ring a = 0

/-- The slot a `NEXT` writes was last written exactly `r` steps before (R116). After a first `NEXT`, which writes the slot
`phys r cursor w`, the `r - 1` `NEXT`s that follow leave its word; after `k` of them the next one to come writes that slot
exactly when `k = r - 1`; that one stores its own new word there and changes no other slot. -/
def Obligations.WrittenSlotIsTheOldest : Prop :=
  ∀ (d : Descriptor) (g : Instance), d.wf = true → Ring.wf d.r g.ring = true → g.cursor < d.r →
    ∃ first y₁, nextStep d g = some (first, y₁)
      ∧ (∀ k, k < d.r → ∃ gk ys, runNext d k first = some (gk, ys)
          ∧ Ring.read gk.ring (phys d.r g.cursor d.w) = Ring.read first.ring (phys d.r g.cursor d.w)
          ∧ (phys d.r gk.cursor d.w = phys d.r g.cursor d.w ↔ k = d.r - 1))
      ∧ ∃ last ys again z y, runNext d (d.r - 1) first = some (last, ys) ∧ nextStep d last = some (again, y)
          ∧ recur d last = some z
          ∧ ∀ a, Ring.read again.ring a =
              if a = phys d.r g.cursor d.w then (if d.storesBack then y else z) else Ring.read last.ring a

/-- The sequence of `NEXT` outputs after a successful `SEED` depends only on the descriptor and the first `r` seed words:
not on what the instance held before, not on a previous run (R109, R112). -/
def Obligations.OutputsDependOnSeedAlone : Prop :=
  ∀ (d : Descriptor) (g h : Instance) (data data' : List Word) (k : Nat),
    d.wf = true → Ring.wf d.r g.ring = true → Ring.wf d.r h.ring = true →
    d.r ≤ data.length → data.take d.r = data'.take d.r →
      ∃ g' h' ys, runNext d k (seedInstance d data g) = some (g', ys)
        ∧ runNext d k (seedInstance d data' h) = some (h', ys)
        ∧ g'.ring = h'.ring ∧ g'.cursor = h'.cursor ∧ ys.length = k

/-- `MIN` answers `(OK, 0x00000000)` in every `PHASE` and when `FAULT = 1`, and changes nothing else (R104). -/
def Obligations.MinAnswersInEveryState : Prop :=
  ∀ (s : State) (g : Instance), s.insts[s.sel]? = some g →
    exec .min s = .next { s with replies := s.replies ++ [.response s.sel .ok (some 0x00000000#32)] }
      ∧ ∀ n rest, decodeHost n 0x30000000#32 rest = .instr .min rest

/-- `MAX` answers `(OK, 0xFFFFFFFF)` in every `PHASE` and when `FAULT = 1`, and changes nothing else (R105). -/
def Obligations.MaxAnswersInEveryState : Prop :=
  ∀ (s : State) (g : Instance), s.insts[s.sel]? = some g →
    exec .max s = .next { s with replies := s.replies ++ [.response s.sel .ok (some 0xFFFFFFFF#32)] }
      ∧ ∀ n rest, decodeHost n 0x40000000#32 rest = .instr .max rest

/-- `SIZE` answers `(OK, zext_32(r))` in every `PHASE` and when `FAULT = 1`, and changes nothing else (R106). For an `r` that
fits no word the spec gives no data, and nothing is said of it here (log 27). -/
def Obligations.SizeAnswersInEveryState : Prop :=
  ∀ (s : State) (g : Instance), s.insts[s.sel]? = some g →
    (∃ x : Word, (s.desc.r < 2 ^ 32 → x.toNat = s.desc.r)
        ∧ exec .size s = .next { s with replies := s.replies ++ [.response s.sel .ok (some x)] })
      ∧ ∀ n rest, decodeHost n 0x50000000#32 rest = .instr .size rest

/-- `EQ` on an unfaulted instance with an existing peer completes, in any `PHASE` of either and whatever the peer's `FAULT`:
1 exactly when all `r` words and the cursors agree, else 0; no state changes in either instance (R107, 10_state.md R32). -/
def Obligations.EqComparesRingAndCursor : Prop :=
  ∀ (s : State) (g h : Instance) (peer : BitVec 28),
    s.insts[s.sel]? = some g → g.fault = false → s.insts[peer.toNat]? = some h →
      ∃ x : Word, (x = 1 ∨ x = 0)
        ∧ (x = 1 ↔ (∀ j, j < s.desc.r → Ring.read g.ring j = Ring.read h.ring j) ∧ g.cursor = h.cursor)
        ∧ exec (.eq peer) s = .next { s with replies := s.replies ++ [.response s.sel .ok (some x)] }

/-- Equality of instances is reflexive, symmetric and transitive, and for canonical rings it is equality of ring and cursor
as data (R111, R32). -/
def Obligations.EqualityIsAnEquivalence : Prop :=
  ∀ (r : Nat) (f g h : Instance),
    sameValue r g g = true ∧ sameValue r g h = sameValue r h g
      ∧ (sameValue r f g = true → sameValue r g h = true → sameValue r f h = true)
      ∧ (Ring.wf r g.ring = true → Ring.wf r h.ring = true →
          (sameValue r g h = true ↔ g.ring = h.ring ∧ g.cursor = h.cursor))

/-! ### Tempering (43_tempering.md) -/

/-- The four tags complete and return the raw word (`none`, `a`, whatever the constant) or one shift-xor pass (`b`, `c`,
for a legal constant); nothing else changes (R126 to R129). The unit answering on a port of its own is the model's form
(log 7). -/
def Obligations.TemperReturnsTransformedWord : Prop :=
  ∀ (s : State) (g : Instance) (z : Word) (kt : Int), s.insts[s.sel]? = some g →
    exec (.temperNone z kt) s = .next { s with replies := s.replies ++ [.unitResult s.sel (some z)] }
      ∧ exec (.temperA z kt) s = .next { s with replies := s.replies ++ [.unitResult s.sel (some z)] }
      ∧ (-31 ≤ kt → kt ≤ 31 →
          exec (.temperB z kt) s = .next { s with replies := s.replies ++ [.unitResult s.sel (some (mixValue z kt))] }
            ∧ exec (.temperC z kt) s =
              .next { s with replies := s.replies ++ [.unitResult s.sel (some (mixValue z kt))] })

/-- `TEMPER` of a checked descriptor by its tag (R125 to R129): the raw word for `none` and `a`, one shift-xor pass with `kt` for
`b` and `c`, stored back or not. For every tag it is a bijection, linear over GF(2), with `TEMPER(0) = 0`. -/
def Obligations.TemperIsALinearBijection : Prop :=
  ∀ d : Descriptor, d.wf = true →
    (∀ z, (d.tag = .none ∨ d.tag = .a → temper d z = some z)
        ∧ (d.tag = .b ∨ d.tag = .c → temper d z = some (mixValue z d.kt)))
      ∧ temper d 0 = some 0
      ∧ (∀ y : Word, ∃ z, temper d z = some y ∧ ∀ z', temper d z' = some y → z' = z)
      ∧ ∀ a b : Word, ∃ x y, temper d a = some x ∧ temper d b = some y ∧ temper d (a ^^^ b) = some (x ^^^ y)

/-- Without store-back the state sequence is that of tag `a` with the same `P`, `K`, `w`, and only the emitted words differ:
each is the tempered raw word (R130, R131). -/
def Obligations.WithoutStoreBackOnlyOutputsDiffer : Prop :=
  ∀ (d : Descriptor) (g : Instance) (k : Nat), d.wf = true → d.storesBack = false →
    ∃ g' zs ys, runNext { d with tag := .a } k g = some (g', zs) ∧ runNext d k g = some (g', ys)
      ∧ zs.mapM (temper d) = some ys

/-! ### Faults and the order of checks (60_exceptions.md) -/

/-- While `FAULT = 1` the commands `SEED`, `NEXT`, `EQ` are refused with `FAULTED`, with no data, and no state changes
(R155). -/
def Obligations.FaultedCommandsAreRefused : Prop :=
  ∀ (s : State) (g : Instance) (data : List Word) (peer : BitVec 28),
    s.insts[s.sel]? = some g → g.fault = true →
      let t : State := { s with replies := s.replies ++ [.response s.sel .faulted none] }
      exec (.seed data) s = .next t ∧ exec .next s = .next t ∧ exec (.eq peer) s = .next t

/-- Test 2 of R159 on the port: any command word but a legal `MIN`, `MAX` or `SIZE`, the illegal ones included, is refused
with `FAULTED`; a `SEED`'s data words are consumed; nothing else of the machine changes (R155). The form of the queue is the
model's (logs 5, 20). -/
def Obligations.FaultedPortRefusesEveryOtherWord : Prop :=
  ∀ (s : State) (g : Instance) (p : Nat) (cw : Word) (data : List Word) (rest : List Input),
    s.pending = .command p cw data :: rest → s.insts[p]? = some g → g.fault = true →
    cw ≠ 0x30000000#32 → cw ≠ 0x40000000#32 → cw ≠ 0x50000000#32 →
    (cwOpc cw = 1 → (cwArg cw).toNat ≤ data.length) →
      step s =
        .next { s with
          sel := p
          pending :=
            (match data.drop (if cwOpc cw = 1 then (cwArg cw).toNat else 0) with
              | [] => rest
              | c :: d => .command p c d :: rest)
          replies := s.replies ++ [.response p .faulted none] }

/-- `ILLEGAL_COMMAND` is raised exactly when `FAULT = 0` and the word is illegal (R154): code 4 is latched, nothing else of
the instance changes, the words after it stay on the port. The form of the queue is the model's (logs 5, 20). -/
def Obligations.IllegalWordTakesFaultEntry : Prop :=
  ∀ (s : State) (g : Instance) (p : Nat) (cw : Word) (data : List Word) (rest : List Input),
    s.pending = .command p cw data :: rest → s.insts[p]? = some g →
      (step s =
          .next { s with
            sel := p
            pending :=
              (match data with
                | [] => rest
                | c :: d => .command p c d :: rest)
            insts := s.insts.set p { g with fault := true, cause := 4#4 }
            replies := s.replies ++ [.response p (.raised .illegalCommand) none] }
        ↔ g.fault = false ∧
          ((cwOpc cw = 0 ∨ 7 ≤ (cwOpc cw).toNat)
            ∨ ((cwOpc cw = 2 ∨ cwOpc cw = 3 ∨ cwOpc cw = 4 ∨ cwOpc cw = 5) ∧ cwArg cw ≠ 0)
            ∨ (cwOpc cw = 6 ∧ s.insts.length ≤ (cwArg cw).toNat)))

/-- Fault entry writes `FAULT` and `CAUSE` and answers `(code, no data)`, nothing else: whatever instruction sets the fault,
the ring, the cursor and the phase are as before (R160, R161). An illegal command word's entry is
`IllegalWordTakesFaultEntry`. The units raising on their own ports is the model's form (log 7). -/
def Obligations.FaultEntryIsPrecise : Prop :=
  ∀ (i : Instr) (s t : State) (g g' : Instance),
    exec i s = .next t → s.insts[s.sel]? = some g → t.insts[s.sel]? = some g' →
    g.fault = false → g'.fault = true →
      ∃ c : Cause, t =
        { s with
          insts := s.insts.set s.sel { g with fault := true, cause := c.code }
          replies := s.replies ++ [.response s.sel (.raised c) none] }

/-- A fault lasts until reset and its cause is never overwritten (R162, R163); while it lasts, no host command changes the
instance at all (R155). What a unit's own port does to a faulted instance is the model's (log 8). -/
def Obligations.FaultIsStickyUntilReset : Prop :=
  ∀ (s t : State) (q : Nat) (g : Instance),
    step s = .next t → s.insts[q]? = some g → g.fault = true → s.pending.head? ≠ some (.reset q) →
      ∃ g', t.insts[q]? = some g' ∧ g'.fault = true ∧ g'.cause = g.cause
        ∧ ((∀ x, s.pending.head? = some x → x.fromHost = true) → g' = g)

/-- THE SHIFT-RANGE FAULT IS UNREACHABLE from host traffic (40_bitops.md R82, R153): that no
instance holds cause 3 is kept by every step on a host's input. -/
def Obligations.ShiftRangeIsUnreachableFromTheHost : Prop :=
  ∀ s t : State, (∀ x, s.pending.head? = some x → x.fromHost = true) →
    (∀ g ∈ s.insts, g.cause ≠ 3#4) → step s = .next t → ∀ g ∈ t.insts, g.cause ≠ 3#4

/-! ### The machine as a whole (10_state.md, 20_memory.md, 42_engine.md R100 and R108, 70_reset_and_hazards.md) -/

/-- A step on a taken transaction is `exec` of the decoded instruction on the port's instance, with the transaction taken
off the queue (R100). The queue and the units' own ports are the model's form (logs 5, 7, 20). -/
def Obligations.StepRunsTheDecodedInstruction : Prop :=
  ∀ (s : State) (p : Nat) (rest : List Input),
    (∀ cw data i left, s.pending = .command p cw data :: rest → decodeHost s.insts.length cw data = .instr i left →
        step s =
          exec i { s with
            sel := p
            pending :=
              (match left with
                | [] => rest
                | c :: d => .command p c d :: rest) })
      ∧ (∀ rop off v, s.pending = .ringOp p rop off v :: rest →
          step s = exec (decodeRing rop off v) { s with sel := p, pending := rest })
      ∧ (∀ kf v, s.pending = .mixOp p kf v :: rest →
          step s = exec (decodeMix kf v) { s with sel := p, pending := rest })
      ∧ (∀ tf ktf z, s.pending = .temperOp p tf ktf z :: rest →
          step s = exec (decodeTemper tf ktf z) { s with sel := p, pending := rest })

/-- A well-formed instruction sent in its own encoding is the one that runs, operands and all (30_encoding.md R60 to R67, R70).
The queue and the units' own ports are the model's form (logs 5, 7). -/
def Obligations.EncodedInstructionRuns : Prop :=
  ∀ (s : State) (p : Nat) (i : Instr), i.wf s.insts.length = true →
    step (s.push (Input.ofEncoded p (encode i))) = exec i { s with sel := p }

/-- With nothing pending the instances are idle and keep all their state (60_exceptions.md R175). That an idle
machine steps to itself is the model's form (log 12). -/
def Obligations.IdleKeepsAllState : Prop :=
  ∀ s : State, s.pending = [] → step s = .next s

/-- Every host input to an existing instance is answered in one step; the only wait is a `SEED` short of its data words
(70_reset_and_hazards.md R187, R194). The refusal's name is the model's (log 9). -/
def Obligations.HostInputAlwaysTerminates : Prop :=
  ∀ (s : State) (x : Input) (rest : List Input),
    s.pending = x :: rest → x.fromHost = true → x.port < s.insts.length →
      (∃ t, step s = .next t)
        ∨ ∃ p cw data, x = .command p cw data ∧ cwOpc cw = 1 ∧ data.length < (cwArg cw).toNat
          ∧ step s = .refused (.seedTruncated ((cwArg cw).toNat - data.length))

/-- Every command, legal or not, gets exactly one response, on its own port, and the response carries data exactly when the
status is `OK` (30_encoding.md R63). -/
def Obligations.OneResponsePerCommand : Prop :=
  ∀ (s t : State) (p : Nat) (cw : Word) (data : List Word) (rest : List Input),
    s.pending = .command p cw data :: rest → step s = .next t →
      ∃ st x, t.replies = s.replies ++ [.response p st x] ∧ (x.isSome = true ↔ st = .ok)

/-- `PHASE` becomes `Seeded` only by a `SEED` with `LEN >= r` on the instance's own port and `Unseeded` only by its reset
(10_state.md R22, R108, R181). -/
def Obligations.PhaseChangesOnlyBySeedAndReset : Prop :=
  ∀ (s t : State) (q : Nat) (g g' : Instance),
    step s = .next t → s.insts[q]? = some g → t.insts[q]? = some g' → g'.phase ≠ g.phase →
      (g'.phase = .unseeded ∧ s.pending.head? = some (.reset q))
        ∨ (g'.phase = .seeded ∧ ∃ cw data, s.pending.head? = some (.command q cw data)
            ∧ cwOpc cw = 1 ∧ s.desc.r ≤ (cwArg cw).toNat)

/-- The reset signal puts every piece of its instance's state to the value of 10_state.md R30, in any state, touches nothing
else but the queue, and gets no response (R180, R181). `RESET_WORD` is zero by the spec's decision D5 (log 3). -/
def Obligations.ResetSignalRestoresResetValues : Prop :=
  ∀ (s : State) (p : Nat) (rest : List Input), s.pending = .reset p :: rest → p < s.insts.length →
    ∃ g' : Instance, (∀ a, Ring.read g'.ring a = 0x00000000#32) ∧ g'.cursor = 0 ∧ g'.phase = .unseeded
      ∧ g'.fault = false ∧ g'.cause = 0#4
      ∧ step s = .next { s with sel := p, pending := rest, insts := s.insts.set p g' }

/-- The machine right after reset: every instance has the values of R30, there is at least one instance, and the descriptor
passes `WF`. The descriptor and the number of instances are OPEN (log 2): this holds for every value of them.
`RESET_WORD` is zero by the spec's decision D5 (log 3). -/
def Obligations.ResetLeavesTheStatedValues : Prop :=
  1 ≤ State.reset.insts.length ∧ State.reset.desc.wf = true
    ∧ ∀ g ∈ State.reset.insts, (∀ a, Ring.read g.ring a = 0x00000000#32) ∧ g.cursor = 0 ∧ g.phase = .unseeded
      ∧ g.fault = false ∧ g.cause = 0#4

/-- The invariant of `EveryStepKeepsTheInvariant` holds after reset (10_state.md R30, R31). That the selected instance exists
rests on the model's field `sel` and its reset value (log 19), that the descriptor passes `WF` on its construction (log 2), the
zero ring on `RESET_WORD` (log 3). -/
def Obligations.InvariantHoldsAtReset : Prop := State.reset.Inv

/-- EVERY STEP KEEPS THE INVARIANT (10_state.md R31): the rings canonical with every address below `r`, the cursors in
`[0, r)`, no cause without a fault, a latched cause one of the four codes, the descriptor checked. -/
def Obligations.EveryStepKeepsTheInvariant : Prop :=
  ∀ s t : State, s.Inv → step s = .next t → t.Inv

/-- EVERY STEP ON A HOST'S INPUT KEEPS an unseeded instance at its reset ring and cursor (10_state.md R33: a faulting command
writes only `FAULT` and `CAUSE`, and only a successful `SEED` and a `NEXT` after it write the ring). -/
def Obligations.UnseededInstancesStayFresh : Prop :=
  ∀ s t : State, (∀ x, s.pending.head? = some x → x.fromHost = true) →
    (∀ g ∈ s.insts, g.FreshUnlessSeeded) → step s = .next t → ∀ g ∈ t.insts, g.FreshUnlessSeeded

/-- A step changes no instance but the one its input is for (20_memory.md R49, 60_exceptions.md R172). -/
def Obligations.OtherInstancesAreUntouched : Prop :=
  ∀ (s t : State) (x : Input) (q : Nat), step s = .next t → s.pending.head? = some x → q ≠ x.port →
    t.insts[q]? = s.insts[q]?

/-- LEGAL COMMANDS OF DIFFERENT INSTANCES COMMUTE, except `EQ` (20_memory.md R49; illegal words and the reset signal are left to
`OtherInstancesAreUntouched`): in either order both complete, the instances end
the same, and each command gets the same response. The order in the queue stands for the interleaving (log 18). -/
def Obligations.CommandsOfDifferentInstancesCommute : Prop :=
  ∀ (s : State) (p q : Nat) (i j : Instr) (rest : List Input),
    p ≠ q → p < s.insts.length → q < s.insts.length →
    i.isCommand = true → j.isCommand = true → i.wf s.insts.length = true → j.wf s.insts.length = true →
    (∀ e, i ≠ .eq e) → (∀ e, j ≠ .eq e) →
      ∃ t t' a b,
        stepTwice { s with
            pending := Input.ofEncoded p (encode i) :: Input.ofEncoded q (encode j) :: rest } = .next t
          ∧ stepTwice { s with
            pending := Input.ofEncoded q (encode j) :: Input.ofEncoded p (encode i) :: rest } = .next t'
          ∧ t.insts = t'.insts ∧ t.pending = rest ∧ t'.pending = rest
          ∧ t.replies = s.replies ++ [a, b] ∧ t'.replies = s.replies ++ [b, a]
end

