-- ==== Sys2Proof/Laws/Decode.lean ====
section
/-! SUPPORT. The command word's fields, the shift field, and the seven ways a command word reads. -/

namespace Sys2Proof.Machine

@[simp] theorem cwOpc_make (o : BitVec 4) (a : BitVec 28) : cwOpc (cwMake o a) = o := by
  apply BitVec.eq_of_getLsbD_eq
  intro i hi
  simp only [cwOpc, cwMake, BitVec.getLsbD_extractLsb', BitVec.getLsbD_append]
  simp [hi]

@[simp] theorem cwArg_make (o : BitVec 4) (a : BitVec 28) : cwArg (cwMake o a) = a := by
  apply BitVec.eq_of_getLsbD_eq
  intro i hi
  simp only [cwArg, cwMake, BitVec.getLsbD_extractLsb', BitVec.getLsbD_append]
  simp [hi]

/-- A command word is its two fields (30_encoding.md R60). -/
theorem cwMake_parts (cw : Word) : cwMake (cwOpc cw) (cwArg cw) = cw := by
  apply BitVec.eq_of_getLsbD_eq
  intro i hi
  simp only [cwOpc, cwArg, cwMake, BitVec.getLsbD_extractLsb', BitVec.getLsbD_append]
  by_cases h : i < 28
  · simp [h]
  · simp only [h, show 28 + (i - 28) = i by omega, if_false]
    simp only [Bool.and_eq_right_iff_imp, decide_eq_true_eq]
    intro _
    omega

/-- The 6-bit field of format M holds `-32 .. 31` (R66). -/
theorem shiftOfField_fieldOfShift {k : Int} (h : FieldHolds k) : shiftOfField (fieldOfShift k) = k := by
  obtain ⟨h1, h2⟩ := h
  unfold shiftOfField fieldOfShift
  interval_cases k <;> decide

/-- How a command word reads, by its opcode (R61). -/
theorem decodeHost_cases (n : Nat) (cw : Word) (rest : List Word) :
    (cwOpc cw = 1#4 ∧ decodeHost n cw rest = decodeSeed (cwArg cw).toNat rest)
      ∨ (cwOpc cw = 2#4 ∧ decodeHost n cw rest = decodePlain .next 2#4 (cwArg cw) rest)
      ∨ (cwOpc cw = 3#4 ∧ decodeHost n cw rest = decodePlain .min 3#4 (cwArg cw) rest)
      ∨ (cwOpc cw = 4#4 ∧ decodeHost n cw rest = decodePlain .max 4#4 (cwArg cw) rest)
      ∨ (cwOpc cw = 5#4 ∧ decodeHost n cw rest = decodePlain .size 5#4 (cwArg cw) rest)
      ∨ (cwOpc cw = 6#4 ∧ decodeHost n cw rest = decodeEq n (cwArg cw) rest)
      ∨ ((cwOpc cw = 0#4 ∨ 7 ≤ (cwOpc cw).toNat)
          ∧ decodeHost n cw rest = .illegal (.reservedOpcode (cwOpc cw)) rest) := by
  unfold decodeHost
  simp only
  generalize cwOpc cw = o
  by_cases h1 : o = 1#4
  · simp [h1]
  by_cases h2 : o = 2#4
  · simp [h2]
  by_cases h3 : o = 3#4
  · simp [h3]
  by_cases h4 : o = 4#4
  · simp [h4]
  by_cases h5 : o = 5#4
  · simp [h5]
  by_cases h6 : o = 6#4
  · simp [h6]
  have h : o = 0#4 ∨ 7 ≤ o.toNat := by
    revert o
    decide
  simp [h1, h2, h3, h4, h5, h6, h]

end Sys2Proof.Machine
end

