-- ==== Sys2Proof/Laws/Operands.lean ====
section
/-! SUPPORT. The relative address: always inside the ring, periodic in the offset, shifted by an advance. -/

namespace Sys2Proof.Machine

/-- "all access is modulo-normalized" (20_memory.md R43). -/
theorem phys_lt {r : Nat} (hr : 0 < r) (c : Nat) (off : Int) : phys r c off < r := by
  unfold phys
  have h1 := Int.emod_lt_of_pos ((c : Int) + off) (b := (r : Int)) (by omega)
  have h2 := Int.emod_nonneg ((c : Int) + off) (b := (r : Int)) (by omega)
  omega

/-- With the cursor at 0, relative and physical indices coincide (41_statering.md R94). -/
theorem phys_zero {r : Nat} {i : Nat} (h : i < r) : phys r 0 (i : Int) = i := by
  unfold phys
  rw [Int.emod_eq_of_lt] <;> omega

/-- After an advance, offset `i - 1` reaches what offset `i` reached (R93). -/
theorem phys_advance {r : Nat} (c : Nat) (off : Int) : phys r ((c + 1) % r) (off - 1) = phys r c off := by
  unfold phys
  congr 1
  push_cast
  rw [Int.emod_add_emod]
  congr 1
  ring

end Sys2Proof.Machine
end

