-- ==== Sys2Proof/Laws/Ring.lean ====
section
/-! SUPPORT. The ring: a read after a write, every other word unchanged, every write keeps the canonical form, and equal
words are equal data. -/

namespace Sys2Proof.Machine

@[simp] theorem Ring.read_nil (a : Nat) : Ring.read [] a = resetWord := rfl

theorem Ring.wfFrom_mono {lo lo' r : Nat} (h : lo' ≤ lo) {m : Ring} (hm : Ring.wfFrom lo r m = true) :
    Ring.wfFrom lo' r m = true := by
  cases m with
  | nil => rfl
  | cons c m =>
    obtain ⟨b, u⟩ := c
    simp only [Ring.wfFrom, Bool.and_eq_true, decide_eq_true_eq] at hm ⊢
    obtain ⟨⟨⟨h1, h2⟩, h3⟩, h4⟩ := hm
    exact ⟨⟨⟨by omega, h2⟩, h3⟩, h4⟩

/-- Nothing is listed below the first possible address. -/
theorem Ring.read_below {m : Ring} {lo r a : Nat} (hm : Ring.wfFrom lo r m = true) (ha : a < lo) :
    Ring.read m a = resetWord := by
  induction m generalizing lo with
  | nil => rfl
  | cons c m ih =>
    obtain ⟨b, u⟩ := c
    simp only [Ring.wfFrom, Bool.and_eq_true, decide_eq_true_eq] at hm
    obtain ⟨⟨⟨h1, -⟩, -⟩, h4⟩ := hm
    have hne : a ≠ b := by omega
    simp only [Ring.read, hne, if_false]
    exact ih h4 (by omega)

/-- Nothing is listed at or above the ring's size. -/
theorem Ring.read_above {m : Ring} {lo r a : Nat} (hm : Ring.wfFrom lo r m = true) (ha : r ≤ a) :
    Ring.read m a = resetWord := by
  induction m generalizing lo with
  | nil => rfl
  | cons c m ih =>
    obtain ⟨b, u⟩ := c
    simp only [Ring.wfFrom, Bool.and_eq_true, decide_eq_true_eq] at hm
    obtain ⟨⟨⟨-, h2⟩, -⟩, h4⟩ := hm
    have hne : a ≠ b := by omega
    simp only [Ring.read, hne, if_false]
    exact ih h4

theorem Ring.read_cell_same {m : Ring} {a : Nat} {v : Word} (h : Ring.read m a = resetWord) :
    Ring.read (Ring.cell a v m) a = v := by
  unfold Ring.cell
  split <;> simp_all [Ring.read]

theorem Ring.read_cell_ne {m : Ring} {a a' : Nat} {v : Word} (h : a' ≠ a) :
    Ring.read (Ring.cell a v m) a' = Ring.read m a' := by
  unfold Ring.cell
  split <;> simp [Ring.read, h]

/-- A write leaves every other word alone, in any ring. -/
theorem Ring.read_write_ne (m : Ring) {a a' : Nat} (v : Word) (h : a' ≠ a) :
    Ring.read (Ring.write m a v) a' = Ring.read m a' := by
  induction m with
  | nil => exact Ring.read_cell_ne h
  | cons c m ih =>
    obtain ⟨b, u⟩ := c
    simp only [Ring.write]
    split
    · exact Ring.read_cell_ne h
    · split
      · rename_i hab
        subst hab
        rw [Ring.read_cell_ne h]
        simp [Ring.read, h]
      · simp only [Ring.read, ih]

/-- A read after a write to the same place gives the word written. -/
theorem Ring.read_write_same {m : Ring} {lo r : Nat} (hm : Ring.wfFrom lo r m = true) (a : Nat) (v : Word) :
    Ring.read (Ring.write m a v) a = v := by
  induction m generalizing lo with
  | nil => exact Ring.read_cell_same rfl
  | cons c m ih =>
    obtain ⟨b, u⟩ := c
    have hm' := hm
    simp only [Ring.wfFrom, Bool.and_eq_true, decide_eq_true_eq] at hm'
    obtain ⟨⟨⟨h1, h2⟩, h3⟩, h4⟩ := hm'
    simp only [Ring.write]
    split
    · rename_i hab
      apply Ring.read_cell_same
      have : a ≠ b := by omega
      simp only [Ring.read, this, if_false]
      exact Ring.read_below h4 (by omega)
    · split
      · rename_i hab
        subst hab
        exact Ring.read_cell_same (Ring.read_below h4 (by omega))
      · rename_i hab
        simp only [Ring.read, hab, if_false]
        exact ih h4

/-- The ring after a write, word by word. -/
theorem Ring.read_write {m : Ring} {r : Nat} (hm : Ring.wf r m = true) (a a' : Nat) (v : Word) :
    Ring.read (Ring.write m a v) a' = if a' = a then v else Ring.read m a' := by
  split
  · rename_i h; subst h; exact Ring.read_write_same hm a' v
  · rename_i h; exact Ring.read_write_ne m v h

theorem Ring.wfFrom_cell {m : Ring} {lo r a : Nat} {v : Word} (hlo : lo ≤ a) (har : a < r)
    (hm : Ring.wfFrom (a + 1) r m = true) : Ring.wfFrom lo r (Ring.cell a v m) = true := by
  unfold Ring.cell
  split
  · exact Ring.wfFrom_mono (by omega) hm
  · rename_i hv
    simp [Ring.wfFrom, hlo, har, hv, hm]

theorem Ring.wfFrom_write {m : Ring} {lo r a : Nat} (v : Word) (hlo : lo ≤ a) (har : a < r)
    (hm : Ring.wfFrom lo r m = true) : Ring.wfFrom lo r (Ring.write m a v) = true := by
  induction m generalizing lo with
  | nil => exact Ring.wfFrom_cell hlo har rfl
  | cons c m ih =>
    obtain ⟨b, u⟩ := c
    have hm' := hm
    simp only [Ring.wfFrom, Bool.and_eq_true, decide_eq_true_eq] at hm'
    obtain ⟨⟨⟨h1, h2⟩, h3⟩, h4⟩ := hm'
    simp only [Ring.write]
    split
    · rename_i hab
      refine Ring.wfFrom_cell hlo har ?_
      simp only [Ring.wfFrom, Bool.and_eq_true, decide_eq_true_eq]
      exact ⟨⟨⟨by omega, h2⟩, h3⟩, h4⟩
    · split
      · rename_i hab
        subst hab
        exact Ring.wfFrom_cell hlo har h4
      · simp only [Ring.wfFrom, Bool.and_eq_true, decide_eq_true_eq]
        exact ⟨⟨⟨h1, h2⟩, h3⟩, ih (by omega) h4⟩

/-- Every write inside the ring keeps the canonical form. -/
theorem Ring.wf_write {m : Ring} {r a : Nat} (v : Word) (har : a < r) (hm : Ring.wf r m = true) :
    Ring.wf r (Ring.write m a v) = true := Ring.wfFrom_write v (Nat.zero_le a) har hm

/-- The reset ring is canonical. -/
theorem Ring.wf_reset (r : Nat) : Ring.wf r [] = true := rfl

/-- Canonical rings that read alike are the same list. -/
theorem Ring.ext_wfFrom {m m' : Ring} {lo r : Nat} (hm : Ring.wfFrom lo r m = true) (hm' : Ring.wfFrom lo r m' = true)
    (h : ∀ a, Ring.read m a = Ring.read m' a) : m = m' := by
  induction m generalizing lo m' with
  | nil =>
    cases m' with
    | nil => rfl
    | cons c m' =>
      obtain ⟨b, u⟩ := c
      simp only [Ring.wfFrom, Bool.and_eq_true, decide_eq_true_eq] at hm'
      have := h b
      simp [Ring.read] at this
      exact absurd this.symm hm'.1.2
  | cons c m ih =>
    obtain ⟨b, u⟩ := c
    have hm1 := hm
    simp only [Ring.wfFrom, Bool.and_eq_true, decide_eq_true_eq] at hm1
    obtain ⟨⟨⟨h1, h2⟩, h3⟩, h4⟩ := hm1
    cases m' with
    | nil =>
      have := h b
      simp [Ring.read] at this
      exact absurd this h3
    | cons c' m' =>
      obtain ⟨b', u'⟩ := c'
      have hm1' := hm'
      simp only [Ring.wfFrom, Bool.and_eq_true, decide_eq_true_eq] at hm1'
      obtain ⟨⟨⟨h1', h2'⟩, h3'⟩, h4'⟩ := hm1'
      have hb : b = b' := by
        rcases Nat.lt_trichotomy b b' with hlt | heq | hgt
        · have := h b
          rw [Ring.read_below (m := (b', u') :: m') (lo := b') (r := r)
            (by simp [Ring.wfFrom, h2', h3', h4']) hlt] at this
          simp [Ring.read] at this
          exact absurd this h3
        · exact heq
        · have := h b'
          rw [Ring.read_below (m := (b, u) :: m) (lo := b) (r := r) (by simp [Ring.wfFrom, h2, h3, h4]) hgt] at this
          simp [Ring.read] at this
          exact absurd this.symm h3'
      subst hb
      have hu : u = u' := by simpa [Ring.read] using h b
      subst hu
      congr 1
      refine ih h4 h4' fun a => ?_
      by_cases ha : a = b
      · subst ha
        rw [Ring.read_below h4 (by omega), Ring.read_below h4' (by omega)]
      · simpa [Ring.read, ha] using h a

/-- Two canonical rings of `r` words that agree on the words `0 .. r-1` are equal. -/
theorem Ring.ext_wf {m m' : Ring} {r : Nat} (hm : Ring.wf r m = true) (hm' : Ring.wf r m' = true)
    (h : ∀ a, a < r → Ring.read m a = Ring.read m' a) : m = m' := by
  refine Ring.ext_wfFrom hm hm' fun a => ?_
  by_cases ha : a < r
  · exact h a ha
  · rw [Ring.read_above hm (by omega), Ring.read_above hm' (by omega)]

end Sys2Proof.Machine
end

