-- ==== Sys2Proof/Laws/State.lean ====
section
/-! SUPPORT. One lemma per field per update of State and Instance, all by rfl. -/

namespace Sys2Proof.Machine

@[simp] theorem State.putInst_desc (s : State) (g : Instance) : (s.putInst g).desc = s.desc := rfl
@[simp] theorem State.putInst_insts (s : State) (g : Instance) : (s.putInst g).insts = s.insts.set s.sel g := rfl
@[simp] theorem State.putInst_sel (s : State) (g : Instance) : (s.putInst g).sel = s.sel := rfl
@[simp] theorem State.putInst_pending (s : State) (g : Instance) : (s.putInst g).pending = s.pending := rfl
@[simp] theorem State.putInst_replies (s : State) (g : Instance) : (s.putInst g).replies = s.replies := rfl

@[simp] theorem State.respond_desc (s : State) (st : Status) (x : Option Word) : (s.respond st x).desc = s.desc := rfl
@[simp] theorem State.respond_insts (s : State) (st : Status) (x : Option Word) : (s.respond st x).insts = s.insts := rfl
@[simp] theorem State.respond_sel (s : State) (st : Status) (x : Option Word) : (s.respond st x).sel = s.sel := rfl
@[simp] theorem State.respond_pending (s : State) (st : Status) (x : Option Word) :
    (s.respond st x).pending = s.pending := rfl
@[simp] theorem State.respond_replies (s : State) (st : Status) (x : Option Word) :
    (s.respond st x).replies = s.replies ++ [.response s.sel st x] := rfl

@[simp] theorem State.unitReply_desc (s : State) (x : Option Word) : (s.unitReply x).desc = s.desc := rfl
@[simp] theorem State.unitReply_insts (s : State) (x : Option Word) : (s.unitReply x).insts = s.insts := rfl
@[simp] theorem State.unitReply_sel (s : State) (x : Option Word) : (s.unitReply x).sel = s.sel := rfl
@[simp] theorem State.unitReply_pending (s : State) (x : Option Word) : (s.unitReply x).pending = s.pending := rfl
@[simp] theorem State.unitReply_replies (s : State) (x : Option Word) :
    (s.unitReply x).replies = s.replies ++ [.unitResult s.sel x] := rfl

@[simp] theorem State.accept_desc (s : State) (p : Nat) (q : List Input) : (s.accept p q).desc = s.desc := rfl
@[simp] theorem State.accept_insts (s : State) (p : Nat) (q : List Input) : (s.accept p q).insts = s.insts := rfl
@[simp] theorem State.accept_sel (s : State) (p : Nat) (q : List Input) : (s.accept p q).sel = p := rfl
@[simp] theorem State.accept_pending (s : State) (p : Nat) (q : List Input) : (s.accept p q).pending = q := rfl
@[simp] theorem State.accept_replies (s : State) (p : Nat) (q : List Input) : (s.accept p q).replies = s.replies := rfl

@[simp] theorem State.push_desc (s : State) (x : Input) : (s.push x).desc = s.desc := rfl
@[simp] theorem State.push_insts (s : State) (x : Input) : (s.push x).insts = s.insts := rfl
@[simp] theorem State.push_sel (s : State) (x : Input) : (s.push x).sel = s.sel := rfl
@[simp] theorem State.push_pending (s : State) (x : Input) : (s.push x).pending = x :: s.pending := rfl
@[simp] theorem State.push_replies (s : State) (x : Input) : (s.push x).replies = s.replies := rfl

@[simp] theorem Instance.writeAt_ring (r : Nat) (g : Instance) (off : Int) (v : Word) :
    (g.writeAt r off v).ring = g.ring.write (phys r g.cursor off) v := rfl
@[simp] theorem Instance.writeAt_cursor (r : Nat) (g : Instance) (off : Int) (v : Word) :
    (g.writeAt r off v).cursor = g.cursor := rfl
@[simp] theorem Instance.writeAt_phase (r : Nat) (g : Instance) (off : Int) (v : Word) :
    (g.writeAt r off v).phase = g.phase := rfl
@[simp] theorem Instance.writeAt_fault (r : Nat) (g : Instance) (off : Int) (v : Word) :
    (g.writeAt r off v).fault = g.fault := rfl
@[simp] theorem Instance.writeAt_cause (r : Nat) (g : Instance) (off : Int) (v : Word) :
    (g.writeAt r off v).cause = g.cause := rfl

@[simp] theorem Instance.advance_ring (r : Nat) (g : Instance) : (g.advance r).ring = g.ring := rfl
@[simp] theorem Instance.advance_cursor (r : Nat) (g : Instance) : (g.advance r).cursor = (g.cursor + 1) % r := rfl
@[simp] theorem Instance.advance_phase (r : Nat) (g : Instance) : (g.advance r).phase = g.phase := rfl
@[simp] theorem Instance.advance_fault (r : Nat) (g : Instance) : (g.advance r).fault = g.fault := rfl
@[simp] theorem Instance.advance_cause (r : Nat) (g : Instance) : (g.advance r).cause = g.cause := rfl

@[simp] theorem Instance.clrcur_ring (g : Instance) : g.clrcur.ring = g.ring := rfl
@[simp] theorem Instance.clrcur_cursor (g : Instance) : g.clrcur.cursor = 0 := rfl
@[simp] theorem Instance.clrcur_phase (g : Instance) : g.clrcur.phase = g.phase := rfl
@[simp] theorem Instance.clrcur_fault (g : Instance) : g.clrcur.fault = g.fault := rfl
@[simp] theorem Instance.clrcur_cause (g : Instance) : g.clrcur.cause = g.cause := rfl

@[simp] theorem Instance.markSeeded_ring (g : Instance) : g.markSeeded.ring = g.ring := rfl
@[simp] theorem Instance.markSeeded_cursor (g : Instance) : g.markSeeded.cursor = g.cursor := rfl
@[simp] theorem Instance.markSeeded_phase (g : Instance) : g.markSeeded.phase = .seeded := rfl
@[simp] theorem Instance.markSeeded_fault (g : Instance) : g.markSeeded.fault = g.fault := rfl
@[simp] theorem Instance.markSeeded_cause (g : Instance) : g.markSeeded.cause = g.cause := rfl

/-- Fault entry touches neither the ring nor the cursor nor the phase (60_exceptions.md R161). -/
theorem Instance.latch_keeps (c : Cause) (g : Instance) :
    (g.latch c).ring = g.ring ∧ (g.latch c).cursor = g.cursor ∧ (g.latch c).phase = g.phase := by
  unfold Instance.latch; split <;> simp

theorem Instance.latch_of_quiet (c : Cause) (g : Instance) (h : g.fault = false) :
    g.latch c = { g with fault := true, cause := c.code } := by simp [Instance.latch, h]

theorem Instance.latch_of_faulted (c : Cause) (g : Instance) (h : g.fault = true) : g.latch c = g := by
  simp [Instance.latch, h]

end Sys2Proof.Machine
end

