-- ==== Sys2Proof/Laws/Ops.lean ====
section
/-! SUPPORT. What each shared operation can do, once: the gates, fault entry, the seed load, and that the operations keep an
instance good. -/

namespace Sys2Proof.Machine

theorem withPort_some {s : State} {g : Instance} (h : s.insts[s.sel]? = some g) (f : Instance → Result) :
    withPort s f = f g := by simp [withPort, h]

theorem withPort_none {s : State} (h : s.insts[s.sel]? = none) (f : Instance → Result) :
    withPort s f = .fault (.noSuchInstance s.sel) := by simp [withPort, h]

/-- If `withPort` answers a next state, the selected instance exists and the meaning answered it. -/
theorem withPort_next {s t : State} {f : Instance → Result} (h : withPort s f = .next t) :
    ∃ g, s.insts[s.sel]? = some g ∧ f g = .next t := by
  unfold withPort at h
  split at h
  · cases h
  · exact ⟨_, ‹_›, h⟩

/-- `hostGate` of an instance without a fault. -/
theorem hostGate_quiet {s : State} {g : Instance} (h : s.insts[s.sel]? = some g) (hf : g.fault = false)
    (f : Instance → Result) : hostGate s f = f g := by simp [hostGate, withPort_some h, hf]

/-- `hostGate` of a faulted instance (60_exceptions.md R155). -/
theorem hostGate_faulted {s : State} {g : Instance} (h : s.insts[s.sel]? = some g) (hf : g.fault = true)
    (f : Instance → Result) : hostGate s f = .next (s.respond .faulted none) := by
  simp [hostGate, withPort_some h, hf]

/-- If `hostGate` answers a next state: refused with `FAULTED`, or the command ran on a quiet instance. -/
theorem hostGate_next {s t : State} {f : Instance → Result} (h : hostGate s f = .next t) :
    ∃ g, s.insts[s.sel]? = some g ∧
      ((g.fault = true ∧ t = s.respond .faulted none) ∨ (g.fault = false ∧ f g = .next t)) := by
  obtain ⟨g, hg, h⟩ := withPort_next h
  refine ⟨g, hg, ?_⟩
  cases hf : g.fault
  · exact .inr ⟨rfl, by simpa [hf] using h⟩
  · exact .inl ⟨rfl, by simpa [hf] using h.symm⟩

theorem raise_next {c : Cause} {g : Instance} {s t : State} (h : raise c g s = .next t) :
    t = (s.putInst (g.latch c)).respond (.raised c) none := by
  unfold raise at h; exact (Host.Outcome.next.inj h).symm

/-- Putting the selected instance back as it was changes nothing. -/
theorem State.putInst_same {s : State} {g : Instance} (h : s.insts[s.sel]? = some g) : s.putInst g = s := by
  obtain ⟨hl, hg⟩ := List.getElem?_eq_some_iff.mp h
  unfold State.putInst
  rw [← hg, List.set_getElem_self]

/-- If a unit's answer is a next state: the value was returned, or fault entry was taken. -/
theorem answerUnit_next {s t : State} {x : Option Word} (h : answerUnit s x = .next t) :
    ∃ g, s.insts[s.sel]? = some g ∧
      ((∃ y, x = some y ∧ t = s.unitReply (some y)) ∨ (x = none ∧ raise .shiftRange g s = .next t)) := by
  obtain ⟨g, hg, h⟩ := withPort_next h
  refine ⟨g, hg, ?_⟩
  cases x with
  | none => exact .inr ⟨rfl, h⟩
  | some y => exact .inl ⟨y, rfl, (Host.Outcome.next.inj h).symm⟩

/-! The seed load. -/

@[simp] theorem Instance.load_cursor (r i : Nat) (vs : List Word) (g : Instance) :
    (Instance.load r i vs g).cursor = g.cursor := by
  induction vs generalizing i g with
  | nil => rfl
  | cons v vs ih => simp [Instance.load, ih]

@[simp] theorem Instance.load_phase (r i : Nat) (vs : List Word) (g : Instance) :
    (Instance.load r i vs g).phase = g.phase := by
  induction vs generalizing i g with
  | nil => rfl
  | cons v vs ih => simp [Instance.load, ih]

@[simp] theorem Instance.load_fault (r i : Nat) (vs : List Word) (g : Instance) :
    (Instance.load r i vs g).fault = g.fault := by
  induction vs generalizing i g with
  | nil => rfl
  | cons v vs ih => simp [Instance.load, ih]

@[simp] theorem Instance.load_cause (r i : Nat) (vs : List Word) (g : Instance) :
    (Instance.load r i vs g).cause = g.cause := by
  induction vs generalizing i g with
  | nil => rfl
  | cons v vs ih => simp [Instance.load, ih]

theorem Instance.load_wf {r : Nat} (hr : 0 < r) (vs : List Word) (i : Nat) {g : Instance}
    (h : Ring.wf r g.ring = true) : Ring.wf r (Instance.load r i vs g).ring = true := by
  induction vs generalizing i g with
  | nil => exact h
  | cons v vs ih => exact ih (i + 1) (Ring.wf_write v (phys_lt hr g.cursor i) h)

/-- The words after a load from offset `i` with the cursor at 0. -/
theorem Instance.load_read {r : Nat} (hr : 0 < r) (vs : List Word) (i : Nat) {g : Instance} (hc : g.cursor = 0)
    (h : Ring.wf r g.ring = true) (hlen : i + vs.length ≤ r) (a : Nat) :
    (Instance.load r i vs g).ring.read a = if i ≤ a then (vs[a - i]?).getD (g.ring.read a) else g.ring.read a := by
  induction vs generalizing i g with
  | nil => simp [Instance.load]
  | cons v vs ih =>
    have hi : i < r := by simp only [List.length_cons] at hlen; omega
    have hp : phys r g.cursor (i : Int) = i := by rw [hc]; exact phys_zero hi
    simp only [Instance.load]
    rw [ih (i + 1) (g := g.writeAt r i v) hc (Ring.wf_write v (phys_lt hr g.cursor i) h)
      (by simp only [List.length_cons] at hlen; omega)]
    simp only [Instance.writeAt_ring, hp, Ring.read_write h]
    rcases Nat.lt_trichotomy a i with hlt | heq | hgt
    · simp [show ¬ (i + 1 ≤ a) by omega, show ¬ (i ≤ a) by omega, show a ≠ i by omega]
    · subst heq; simp
    · obtain ⟨k, rfl⟩ : ∃ k, a = i + 1 + k := ⟨a - (i + 1), by omega⟩
      have h1 : i + 1 + k - i = k + 1 := by omega
      have h2 : i + 1 + k - (i + 1) = k := by omega
      simp [h1, h2, show i ≤ i + 1 + k by omega, show i + 1 + k ≠ i by omega]

/-! The operations keep an instance good. -/

theorem Instance.Ok.reset {r : Nat} (hr : 0 < r) : Instance.Ok r Instance.reset :=
  ⟨rfl, hr, fun _ => rfl, fun h => by cases h⟩

theorem Instance.Ok.writeAt {r : Nat} (hr : 0 < r) {g : Instance} (h : g.Ok r) (off : Int) (v : Word) :
    (g.writeAt r off v).Ok r := ⟨Ring.wf_write v (phys_lt hr g.cursor off) h.ring, h.cursor, h.quiet, h.latched⟩

theorem Instance.Ok.advance {r : Nat} (hr : 0 < r) {g : Instance} (h : g.Ok r) : (g.advance r).Ok r :=
  ⟨h.ring, Nat.mod_lt _ hr, h.quiet, h.latched⟩

theorem Instance.Ok.clrcur {r : Nat} (hr : 0 < r) {g : Instance} (h : g.Ok r) : g.clrcur.Ok r :=
  ⟨h.ring, hr, h.quiet, h.latched⟩

theorem Instance.Ok.markSeeded {r : Nat} {g : Instance} (h : g.Ok r) : g.markSeeded.Ok r :=
  ⟨h.ring, h.cursor, h.quiet, h.latched⟩

theorem Instance.Ok.latch {r : Nat} {g : Instance} (h : g.Ok r) (c : Cause) : (g.latch c).Ok r := by
  cases hf : g.fault
  · rw [Instance.latch_of_quiet c g hf]
    exact ⟨h.ring, h.cursor, (fun h' => by cases h'), fun _ => ⟨c, rfl⟩⟩
  · rw [Instance.latch_of_faulted c g hf]; exact h

theorem Instance.Ok.load {r : Nat} (hr : 0 < r) (vs : List Word) (i : Nat) {g : Instance} (h : g.Ok r) :
    (Instance.load r i vs g).Ok r := by
  induction vs generalizing i g with
  | nil => exact h
  | cons v vs ih => exact ih (i + 1) (h.writeAt hr i v)

end Sys2Proof.Machine
end

