-- ==== Sys2Proof/Laws/Exec.lean ====
section
/-! SUPPORT. What a `NEXT` and an instruction can do to a state, said once: the provers' inversion lemmas. -/

namespace Sys2Proof.Machine

theorem Descriptor.wf_r {d : Descriptor} (h : d.wf = true) : 0 < d.r := by
  simp only [Descriptor.wf, Bool.and_eq_true, decide_eq_true_eq] at h
  omega

/-- `MIX` with a legal amount (40_bitops.md R80). -/
theorem mix_legal {v : Word} {k : Int} (h : ShiftLegal k) : mix v k = some (mixValue v k) := by
  obtain ⟨h1, h2⟩ := h
  unfold mix mixValue
  rw [if_neg (by omega)]
  split
  · rfl
  split
  · congr 2
    apply BitVec.eq_of_toNat_eq
    simp [shl, Nat.shiftLeft_eq]
  · congr 2
    apply BitVec.eq_of_toNat_eq
    have hlt : v.toNat / 2 ^ (-k).toNat < 2 ^ 32 := lt_of_le_of_lt (Nat.div_le_self _ _) v.isLt
    simp [shr, Nat.shiftRight_eq_div_pow]
    exact (Nat.mod_eq_of_lt hlt).symm

/-- `MIX` with any other amount gives no value (R82). -/
theorem mix_illegal {v : Word} {k : Int} (h : ¬ ShiftLegal k) : mix v k = none := by
  unfold ShiftLegal at h
  unfold mix
  rw [if_pos (by omega)]

/-- The data of `SIZE` for a ring whose size fits a word (R106); for any other nothing is known of it (log 27). -/
theorem sizeWord_toNat {r : Nat} (h : r < 2 ^ 32) : (sizeWord r).toNat = r := by
  rw [sizeWord, if_pos h, BitVec.toNat_ofNat, Nat.mod_eq_of_lt h]

/-- `TEMPER` for each tag of a descriptor whose constant is legal (43_tempering.md R125 to R129). -/
theorem temper_legal {d : Descriptor} (h : ShiftLegal d.kt) (z : Word) :
    temper d z = some (match d.tag with
      | .none => z
      | .a => z
      | .b => mixValue z d.kt
      | .c => mixValue z d.kt) := by
  unfold temper
  cases d.tag <;> first | rfl | exact mix_legal h

/-- What a completed `NEXT` did (42_engine.md R102): the raw word, the emitted word, one ring write, one advance. -/
theorem nextStep_some {d : Descriptor} {g g' : Instance} {y : Word} (h : nextStep d g = some (g', y)) :
    ∃ z, recur d g = some z ∧ temper d z = some y ∧
      g' = (if d.storesBack then ((g.writeAt d.r d.w z).advance d.r).writeAt d.r (d.w - 1) y
        else (g.writeAt d.r d.w z).advance d.r) := by
  simp only [nextStep, Option.bind_eq_some_iff] at h
  obtain ⟨z, hz, y', hy, h⟩ := h
  simp only [Option.some.injEq, Prod.mk.injEq] at h
  obtain ⟨h1, rfl⟩ := h
  exact ⟨z, hz, hy, h1.symm⟩

theorem nextStep_ok {d : Descriptor} (hr : 0 < d.r) {g g' : Instance} {y : Word} (h : nextStep d g = some (g', y))
    (hg : g.Ok d.r) : g'.Ok d.r := by
  obtain ⟨z, -, -, rfl⟩ := nextStep_some h
  have h1 := (hg.writeAt hr d.w z).advance hr
  split
  · exact h1.writeAt hr _ y
  · exact h1

theorem nextStep_flags {d : Descriptor} {g g' : Instance} {y : Word} (h : nextStep d g = some (g', y)) :
    g'.phase = g.phase ∧ g'.fault = g.fault ∧ g'.cause = g.cause := by
  obtain ⟨z, -, -, rfl⟩ := nextStep_some h
  split <;> simp

theorem seedInstance_ok {d : Descriptor} (hr : 0 < d.r) (data : List Word) {g : Instance} (hg : g.Ok d.r) :
    (seedInstance d data g).Ok d.r := ((hg.clrcur hr).load hr _ 0).markSeeded

/-- The new state an instruction gives its own instance. -/
inductive Effect (d : Descriptor) (g : Instance) : Instr → Instance → Prop where
  | same (i : Instr) : Effect d g i g
  | latch (i : Instr) (c : Cause) : Effect d g i (g.latch c)
  | seed (data : List Word) (hf : g.fault = false) (hl : d.r ≤ data.length) :
      Effect d g (.seed data) (seedInstance d data g)
  | next (g' : Instance) (y : Word) (hf : g.fault = false) (hp : g.phase = .seeded)
      (h : nextStep d g = some (g', y)) : Effect d g .next g'
  | ringSet (off : Int) (v : Word) : Effect d g (.ringSet off v) (g.writeAt d.r off v)
  | advance : Effect d g .advance (g.advance d.r)
  | clrcur : Effect d g .clrcur g.clrcur

/-- The shape every next state of an instruction has: the selected instance changed, one reply more, nothing else. -/
def Shaped (s t : State) (i : Instr) : Prop :=
  ∃ g g' rep, s.insts[s.sel]? = some g ∧ Effect s.desc.toDescriptor g i g' ∧
    t = { s with insts := s.insts.set s.sel g', replies := s.replies ++ [rep] }

theorem Shaped.unchanged {s t : State} {i : Instr} {g : Instance} (hg : s.insts[s.sel]? = some g) (rep : Reply)
    (ht : t = { s with replies := s.replies ++ [rep] }) : Shaped s t i := by
  refine ⟨g, g, rep, hg, .same i, ?_⟩
  have h := congrArg State.insts (State.putInst_same hg)
  simp only [State.putInst_insts] at h
  rw [ht, h]

theorem Shaped.raised {s t : State} {i : Instr} {g : Instance} {c : Cause} (hg : s.insts[s.sel]? = some g)
    (h : raise c g s = .next t) : Shaped s t i := by
  refine ⟨g, g.latch c, .response s.sel (.raised c) none, hg, .latch i c, ?_⟩
  rw [raise_next h]
  rfl

theorem Shaped.unit {s t : State} {i : Instr} {x : Option Word} (h : answerUnit s x = .next t) : Shaped s t i := by
  obtain ⟨g, hg, ⟨y, -, ht⟩ | ⟨-, h⟩⟩ := answerUnit_next h
  · exact .unchanged hg _ ht
  · exact .raised hg h

theorem execSeed_shaped {s t : State} {data : List Word} (h : execSeed data s = .next t) :
    Shaped s t (.seed data) := by
  obtain ⟨g, hg, ⟨-, ht⟩ | ⟨hf, h⟩⟩ := hostGate_next h
  · exact .unchanged hg _ ht
  · split at h
    · rename_i hl
      exact ⟨g, _, _, hg, .seed data hf hl, (Host.Outcome.next.inj h).symm⟩
    · exact .raised hg h

theorem execNext_shaped {s t : State} (h : execNext s = .next t) : Shaped s t .next := by
  obtain ⟨g, hg, ⟨-, ht⟩ | ⟨hf, h⟩⟩ := hostGate_next h
  · exact .unchanged hg _ ht
  · split at h
    · exact .raised hg h
    · rename_i hp
      split at h
      · exact .raised hg h
      · rename_i g' y hn
        exact ⟨g, g', _, hg, .next g' y hf hp hn, (Host.Outcome.next.inj h).symm⟩

theorem execEq_shaped {s t : State} {peer : BitVec 28} (h : execEq peer s = .next t) : Shaped s t (.eq peer) := by
  obtain ⟨g, hg, ⟨-, ht⟩ | ⟨-, h⟩⟩ := hostGate_next h
  · exact .unchanged hg _ ht
  · split at h
    · exact .raised hg h
    · exact .unchanged hg _ (Host.Outcome.next.inj h).symm

/-- THE INVERSION LEMMA: whatever the instruction, a next state has this shape. -/
theorem exec_shaped {i : Instr} {s t : State} (h : exec i s = .next t) : Shaped s t i := by
  cases i with
  | seed data => exact execSeed_shaped h
  | next => exact execNext_shaped h
  | eq peer => exact execEq_shaped h
  | min => obtain ⟨g, hg, h⟩ := withPort_next h; exact .unchanged hg _ (Host.Outcome.next.inj h).symm
  | max => obtain ⟨g, hg, h⟩ := withPort_next h; exact .unchanged hg _ (Host.Outcome.next.inj h).symm
  | size => obtain ⟨g, hg, h⟩ := withPort_next h; exact .unchanged hg _ (Host.Outcome.next.inj h).symm
  | ringAt off => obtain ⟨g, hg, h⟩ := withPort_next h; exact .unchanged hg _ (Host.Outcome.next.inj h).symm
  | ringSet off v =>
    obtain ⟨g, hg, h⟩ := withPort_next h
    exact ⟨g, _, _, hg, .ringSet off v, (Host.Outcome.next.inj h).symm⟩
  | advance =>
    obtain ⟨g, hg, h⟩ := withPort_next h
    exact ⟨g, _, _, hg, .advance, (Host.Outcome.next.inj h).symm⟩
  | clrcur =>
    obtain ⟨g, hg, h⟩ := withPort_next h
    exact ⟨g, _, _, hg, .clrcur, (Host.Outcome.next.inj h).symm⟩
  | mix v k => exact .unit h
  | temperNone z kt => exact .unit (x := temperRaw z) h
  | temperA z kt => exact .unit (x := temperRaw z) h
  | temperB z kt => exact .unit h
  | temperC z kt => exact .unit h

/-- Every effect keeps an instance good. -/
theorem Effect.ok {d : Descriptor} (hr : 0 < d.r) {g g' : Instance} {i : Instr} (h : Effect d g i g')
    (hg : g.Ok d.r) : g'.Ok d.r := by
  cases h with
  | same => exact hg
  | latch _ c => exact hg.latch c
  | seed data => exact seedInstance_ok hr data hg
  | next _ y hf hp h => exact nextStep_ok hr h hg
  | ringSet off v => exact hg.writeAt hr off v
  | advance => exact hg.advance hr
  | clrcur => exact hg.clrcur hr

end Sys2Proof.Machine
end

