-- ==== Sys2Proof/Laws/PerInstr.lean ====
section
/-! SUPPORT. Per-instruction laws about the instructions as syntax: how many words each has on its port
(30_encoding.md R70: `1 + LEN` for `SEED`, exactly one for every other command; the units' operations carry none). -/

namespace Sys2Proof.Laws.EncodedLength

/-- The number of 32-bit words on a command port. -/
def portWords : Encoded → Nat
  | .host _ data => 1 + data.length
  | .ring _ _ _ => 0
  | .mix _ _ => 0
  | .temper _ _ _ => 0

/-- The length R70 gives each operation. -/
def expected : Instr → Nat
  | .seed data => 1 + data.length
  | .next => 1
  | .min => 1
  | .max => 1
  | .size => 1
  | .eq _ => 1
  | .ringAt _ => 0
  | .ringSet _ _ => 0
  | .advance => 0
  | .clrcur => 0
  | .mix _ _ => 0
  | .temperNone _ _ => 0
  | .temperA _ _ => 0
  | .temperB _ _ => 0
  | .temperC _ _ => 0

/-- The encoder sends as many words as R70 says. -/
def Statement (i : Instr) : Prop := portWords (encode i) = expected i

theorem seed (data : List Word) : Statement (.seed data) := rfl
theorem next : Statement .next := rfl
theorem min : Statement .min := rfl
theorem max : Statement .max := rfl
theorem size : Statement .size := rfl
theorem eq (peer : BitVec 28) : Statement (.eq peer) := rfl
theorem ringAt (off : Int) : Statement (.ringAt off) := rfl
theorem ringSet (off : Int) (v : Word) : Statement (.ringSet off v) := rfl
theorem advance : Statement .advance := rfl
theorem clrcur : Statement .clrcur := rfl
theorem mix (v : Word) (k : Int) : Statement (.mix v k) := rfl
theorem temperNone (z : Word) (kt : Int) : Statement (.temperNone z kt) := rfl
theorem temperA (z : Word) (kt : Int) : Statement (.temperA z kt) := rfl
theorem temperB (z : Word) (kt : Int) : Statement (.temperB z kt) := rfl
theorem temperC (z : Word) (kt : Int) : Statement (.temperC z kt) := rfl

end Sys2Proof.Laws.EncodedLength
end

