-- ==== Sys2Proof/Laws/Step.lean ====
section
/-! SUPPORT. What a step can do, said once. -/

namespace Sys2Proof.Machine

theorem illegalCommand_next {s t : State} (h : illegalCommand s = .next t) :
    ∃ g, s.insts[s.sel]? = some g ∧
      ((g.fault = true ∧ t = s.respond .faulted none) ∨
        (g.fault = false ∧ t = (s.putInst (g.latch .illegalCommand)).respond (.raised .illegalCommand) none)) := by
  obtain ⟨g, hg, ⟨hf, ht⟩ | ⟨hf, h⟩⟩ := hostGate_next h
  · exact ⟨g, hg, .inl ⟨hf, ht⟩⟩
  · exact ⟨g, hg, .inr ⟨hf, raise_next h⟩⟩

theorem resetSignal_next {s t : State} (h : resetSignal s = .next t) :
    ∃ g, s.insts[s.sel]? = some g ∧ t = s.putInst Instance.reset := by
  obtain ⟨g, hg, h⟩ := withPort_next h
  exact ⟨g, hg, (Host.Outcome.next.inj h).symm⟩

/-- The state in which a taken transaction runs differs from the state before in the port and the queue only. -/
theorem fetch_accepts (s : State) :
    (fetch s = .idle ∧ s.pending = []) ∨ (∃ n, fetch s = .truncated n) ∨
      ∃ x rest q, s.pending = x :: rest ∧
        ((∃ i, fetch s = .run i (s.accept x.port q)) ∨ (∃ w, fetch s = .illegal w (s.accept x.port q)) ∨
          (x = .reset x.port ∧ fetch s = .reset (s.accept x.port q))) := by
  unfold fetch
  cases hp : s.pending with
  | nil => exact .inl ⟨rfl, rfl⟩
  | cons x rest =>
    cases x with
    | command port cw data =>
      simp only [fetchCommand]
      cases hd : decodeHost s.nInst cw data with
      | instr i left => exact .inr (.inr ⟨_, rest, requeue port left rest, rfl, .inl ⟨i, rfl⟩⟩)
      | illegal why left => exact .inr (.inr ⟨_, rest, requeue port left rest, rfl, .inr (.inl ⟨why, rfl⟩)⟩)
      | truncated n => exact .inr (.inl ⟨n, rfl⟩)
    | ringOp port rop off wdata => exact .inr (.inr ⟨_, rest, rest, rfl, .inl ⟨_, rfl⟩⟩)
    | mixOp port kf v => exact .inr (.inr ⟨_, rest, rest, rfl, .inl ⟨_, rfl⟩⟩)
    | temperOp port tf ktf z => exact .inr (.inr ⟨_, rest, rest, rfl, .inl ⟨_, rfl⟩⟩)
    | reset port => exact .inr (.inr ⟨_, rest, rest, rfl, .inr (.inr ⟨rfl, rfl⟩)⟩)

/-- The step on a command port, by what its words read as. -/
theorem step_command {s : State} {p : Nat} {cw : Word} {data : List Word} {rest : List Input}
    (h : s.pending = .command p cw data :: rest) :
    step s =
      match decodeHost s.nInst cw data with
      | .instr i left => exec i (s.accept p (requeue p left rest))
      | .illegal _ left => illegalCommand (s.accept p (requeue p left rest))
      | .truncated n => .refused (.seedTruncated n) := by
  simp only [step, fetch, h, fetchCommand]
  cases decodeHost s.nInst cw data <;> rfl

/-- THE STEP'S INVERSION LEMMA: idle, an instruction, an illegal word, or a reset. -/
theorem step_cases {s t : State} (h : step s = .next t) :
    (s.pending = [] ∧ t = s) ∨
      ∃ x rest q, s.pending = x :: rest ∧
        ((∃ i, fetch s = .run i (s.accept x.port q) ∧ exec i (s.accept x.port q) = .next t) ∨
          (∃ w, fetch s = .illegal w (s.accept x.port q) ∧ illegalCommand (s.accept x.port q) = .next t) ∨
          (x = .reset x.port ∧ resetSignal (s.accept x.port q) = .next t)) := by
  unfold step at h
  obtain ⟨hf, hp⟩ | ⟨n, hf⟩ | ⟨x, rest, q, hp, ⟨i, hf⟩ | ⟨w, hf⟩ | ⟨hx, hf⟩⟩ := fetch_accepts s <;> rw [hf] at h
  · exact .inl ⟨hp, (Host.Outcome.next.inj h).symm⟩
  · cases h
  · exact .inr ⟨x, rest, q, hp, .inl ⟨i, hf, h⟩⟩
  · exact .inr ⟨x, rest, q, hp, .inr (.inl ⟨w, hf, h⟩)⟩
  · exact .inr ⟨x, rest, q, hp, .inr (.inr ⟨hx, h⟩)⟩

end Sys2Proof.Machine
end

