-- ==== Sys2Proof/Tests/Slice0.lean ====
section
/-! SUPPORT. The model's own tests. Expected values come from 95_test_vectors.md (V numbers) or from the encodings of
30_encoding.md written out by hand. Every test is one step or one function on a small state. -/

namespace Sys2Proof.Tests

open Sys2Proof Sys2Proof.Machine

/-! ### Test data: the toy descriptors of 95_test_vectors.md section 2 -/

def t8a : Descriptor :=
  { name := none, r := 8, n := 3, P := [0, 1, 7], K := [3, -5, 0], w := 0, tag := .a, kt := 0, tstore := false }
def t8b : Descriptor := { t8a with tag := .b, kt := 7 }
def t8c : Descriptor := { t8a with tag := .c, kt := 9, tstore := true }
def t8cr : Descriptor := { t8a with tag := .c, kt := -11, tstore := true }
def t5n : Descriptor :=
  { name := none, r := 5, n := 5, P := [0, 1, 2, 3, 4], K := [-1, 31, 0, -31, 16], w := 2, tag := .none, kt := 0,
    tstore := false }
def t1 : Descriptor :=
  { name := none, r := 1, n := 3, P := [0, 0, 0], K := [1, -1, 0], w := 0, tag := .a, kt := 0, tstore := false }
/-- V178: fails `WF`. -/
def t8bad : Descriptor := { t8a with K := [3, -32, 0] }
/-- V179: fails `WF`. -/
def t8cbad : Descriptor := { t8c with kt := 32 }

/-- The seed `MIXED`. -/
def mixed : List Word := [1, 2, 4, 8, 0x80000000, 0xFFFFFFFF, 0xDEADBEEF, 0x12345678]

/-- An instance holding the given words, cursor and phase, without a fault. -/
def holding (words : List Word) (cursor : Nat) (phase : Phase) : Instance :=
  { Instance.load words.length 0 words Instance.reset with cursor := cursor, phase := phase }

/-- A two-instance system with the given instance 0 selected and the other fresh from reset. -/
def sys (d : Descriptor) (g : Instance) (ok : d.wf = true := by decide) : State :=
  { desc := { toDescriptor := d, ok := ok }, insts := [g, Instance.reset], sel := 0, pending := [], replies := [] }

/-- Instance 0 after an outcome, if it is a next state. -/
def inst0 : Result → Option Instance
  | .next t => t.insts[0]?
  | .fault _ => none
  | .refused _ => none

/-- The replies after an outcome. -/
def said : Result → List Reply
  | .next t => t.replies
  | .fault _ => []
  | .refused _ => []

/-- The queue after an outcome. -/
def left : Result → List Input
  | .next t => t.pending
  | .fault _ => []
  | .refused _ => []

/-- The words `S[0 .. n-1]`. -/
def words (n : Nat) (g : Instance) : List Word := (List.range n).map g.ring.read

def faulted (c : Cause) (g : Instance) : Instance := g.latch c

/-- The start state of section 3.3: words A0 .. A7, cursor 6. -/
def ring33 : Instance := holding [0xA0, 0xA1, 0xA2, 0xA3, 0xA4, 0xA5, 0xA6, 0xA7] 6 .seeded

/-! ### WellFormed refuses an ill-formed term for each of its checks -/

theorem test_wf_seed_too_long (data : List Word) (h : data.length = 2 ^ 28) : Instr.wf 2 (.seed data) = false := by
  simp [Instr.wf, h]
theorem test_wf_eq_peer : Instr.wf 2 (.eq 2) = false := by decide
theorem test_wf_mix_range : Instr.wf 2 (.mix 1 (-32)) = false ∧ Instr.wf 2 (.mix 1 32) = false := by decide
theorem test_wf_temperNone_field : Instr.wf 2 (.temperNone 1 32) = false := by decide
theorem test_wf_temperA_field : Instr.wf 2 (.temperA 1 (-33)) = false := by decide
theorem test_wf_temperB_range : Instr.wf 2 (.temperB 1 (-32)) = false := by decide
theorem test_wf_temperC_range : Instr.wf 2 (.temperC 1 32) = false := by decide
/-- Well-formed neighbours of the refused terms. -/
theorem test_wf_accepts :
    Instr.wf 2 (.eq 1) = true ∧ Instr.wf 2 (.mix 1 (-31)) = true ∧ Instr.wf 2 (.temperA 1 (-32)) = true
      ∧ Instr.wf 2 (.temperC 1 31) = true ∧ Instr.wf 2 (.seed []) = true := by decide

/-! ### The descriptor check: V198 to V210 -/

theorem test_descriptor_wf :
    (t8a.wf && t8b.wf && t8c.wf && t8cr.wf && t5n.wf && t1.wf) = true
      ∧ Descriptor.wf { t8a with P := [0, 1, 8] } = false ∧ Descriptor.wf { t8a with P := [0, 1, -1] } = false
      ∧ Descriptor.wf { t8a with w := 8 } = false ∧ t8bad.wf = false
      ∧ Descriptor.wf { t8a with K := [32, -5, 0] } = false ∧ Descriptor.wf { t8b with kt := -32 } = false
      ∧ Descriptor.wf { t8a with n := 2, P := [0, 1], K := [3, -5] } = false
      ∧ Descriptor.wf { t8a with n := 6, P := [0, 1, 2, 3, 4, 5], K := [1, 2, 3, 4, 5, 6] } = false
      ∧ Descriptor.wf { t8a with K := [3, -5] } = false
      ∧ Descriptor.wf { t8a with r := 0, P := [0, 0, 0], K := [1, 1, 1] } = false
      ∧ Descriptor.wf { t8a with P := [0, 0, 0], K := [0, 0, 0] } = true
      ∧ Descriptor.wf { t8a with kt := -32 } = false := by decide
/-- A failing descriptor builds no system (R156). -/
theorem test_build : State.build t8bad 1 = none ∧ State.build t8a 0 = none ∧ State.build t8a 2 ≠ none := by decide
/-- The stored fields of `T5N` (section 2: `K` is `111111 011111 000000 100001 010000`). -/
theorem test_store :
    t5n.store.K = [0b111111, 0b011111, 0b000000, 0b100001, 0b010000] ∧ t8b.store.kt = 0b000111
      ∧ t8cr.store.tag = 0b11 ∧ t5n.store.load = t5n := by decide

/-! ### Decoding: one word or field per constructor, written out from the spec -/

theorem test_decode_seed : decodeHost 2 0x10000002 [7, 8, 9] = .instr (.seed [7, 8]) [9] := by decide
/-- V180: `LEN = 0`, no data word follows. -/
theorem test_decode_seed_empty : decodeHost 2 0x10000000 [5] = .instr (.seed []) [5] := by decide
theorem test_decode_seed_short_of_words : decodeHost 2 0x10000008 [1, 1, 1] = .truncated 5 := by decide
theorem test_decode_next : decodeHost 2 0x20000000 [] = .instr .next [] := by decide
theorem test_decode_min : decodeHost 2 0x30000000 [] = .instr .min [] := by decide
theorem test_decode_max : decodeHost 2 0x40000000 [] = .instr .max [] := by decide
theorem test_decode_size : decodeHost 2 0x50000000 [] = .instr .size [] := by decide
/-- V189, V190. -/
theorem test_decode_eq :
    decodeHost 2 0x60000001 [] = .instr (.eq 1) [] ∧ decodeHost 2 0x60000002 [] = .illegal (.noSuchPeer 2) [] := by
  decide
/-- V191 to V197. -/
theorem test_decode_illegal :
    decodeHost 2 0x00000000 [] = .illegal (.reservedOpcode 0) []
      ∧ decodeHost 2 0x0FFFFFFF [] = .illegal (.reservedOpcode 0) []
      ∧ decodeHost 2 0x20000100 [] = .illegal (.nonzeroArg 2 0x100) []
      ∧ decodeHost 2 0x48000000 [] = .illegal (.nonzeroArg 4 0x8000000) []
      ∧ decodeHost 2 0x70000000 [] = .illegal (.reservedOpcode 7) []
      ∧ decodeHost 2 0x80000000 [] = .illegal (.reservedOpcode 8) []
      ∧ decodeHost 2 0xE0000008 [] = .illegal (.reservedOpcode 14) [] := by decide
theorem test_decode_at : decodeRing 0b00 (-2) 0 = .ringAt (-2) := by decide
theorem test_decode_set : decodeRing 0b01 3 0x22222222 = .ringSet 3 0x22222222 := by decide
theorem test_decode_advance : decodeRing 0b10 0 0 = .advance := by decide
theorem test_decode_clrcur : decodeRing 0b11 0 0 = .clrcur := by decide
theorem test_decode_mix :
    decodeMix 0b111011 1 = .mix 1 (-5) ∧ decodeMix 0b011111 1 = .mix 1 31 ∧ decodeMix 0b100001 1 = .mix 1 (-31)
      ∧ decodeMix 0b100000 1 = .mix 1 (-32) := by decide
theorem test_decode_temperNone : decodeTemper 0b00 0b110101 9 = .temperNone 9 (-11) := by decide
theorem test_decode_temperA : decodeTemper 0b01 0b000111 9 = .temperA 9 7 := by decide
theorem test_decode_temperB : decodeTemper 0b10 0b110101 9 = .temperB 9 (-11) := by decide
theorem test_decode_temperC : decodeTemper 0b11 0b001001 9 = .temperC 9 9 := by decide

/-- The table's words through the host's own entry point. -/
theorem test_table_words :
    decodeTableWord 32 0x10000000 = some (.seed []) ∧ decodeTableWord 32 0x10000002 = some (.seed [0, 0])
      ∧ decodeTableWord 32 0x20000000 = some .next ∧ decodeTableWord 32 0x30000000 = some .min
      ∧ decodeTableWord 32 0x40000000 = some .max ∧ decodeTableWord 32 0x50000000 = some .size
      ∧ decodeTableWord 32 0x60000000 = some (.eq 0) ∧ decodeTableWord 32 0x00000000 = none
      ∧ decodeTableWord 8 1 = some (.ringSet 0 0) ∧ decodeTableWord 8 0b111011 = some (.mix 0 (-5)) := by decide

/-! ### The first instruction after reset runs (the descriptor and the number of instances are OPEN) -/

/-- Whether an outcome is a next state. -/
def ran : Result → Bool
  | .next _ => true
  | .fault _ => false
  | .refused _ => false

theorem test_reset_runs_seed : ran (step (State.reset.withFetchWord 32 0x10000000)) = true := by decide
theorem test_reset_runs_next : ran (step (State.reset.withFetchWord 32 0x20000000)) = true := by decide
theorem test_reset_runs_min : ran (step (State.reset.withFetchWord 32 0x30000000)) = true := by decide
theorem test_reset_runs_max : ran (step (State.reset.withFetchWord 32 0x40000000)) = true := by decide
theorem test_reset_runs_size : ran (step (State.reset.withFetchWord 32 0x50000000)) = true := by decide
theorem test_reset_runs_eq : ran (step (State.reset.withFetchWord 32 0x60000000)) = true := by decide
theorem test_reset_runs_at : ran (step (State.reset.withFetchWord 8 0)) = true := by decide
theorem test_reset_runs_mix : ran (step (State.reset.withFetchWord 8 0b000101)) = true := by decide

/-! ### MIX (section 3.1) and ISPOW2 (section 3.2) -/

/-- V1, V4, V6, V7, V9, V13, V14, V16. -/
theorem test_mix_values :
    mix 1 0 = some 1 ∧ mix 1 31 = some 0x80000001 ∧ mix 0x80000000 (-31) = some 0x80000001
      ∧ mix 0x80000000 (-1) = some 0xC0000000 ∧ mix 0xFFFFFFFF 4 = some 0x0000000F
      ∧ mix 0xDEADBEEF 13 = some 0x69705EEF ∧ mix 0xDEADBEEF (-13) = some 0xDEAB4B82
      ∧ mix 0x12345678 (-16) = some 0x1234444C := by decide
/-- V19 to V21: no value; fault entry with code 3 when the operation is performed. -/
theorem test_mix_range :
    mix 1 32 = none ∧ mix 1 (-32) = none ∧ mix 0xFFFFFFFF 40 = none
      ∧ (inst0 (exec (.mix 1 (-32)) (sys t8a ring33))).map (fun g => (g.fault, g.cause, g.cursor)) =
          some (true, 3, 6) := by decide
/-- V23 to V28. -/
theorem test_isPow2 :
    isPow2 1 = true ∧ isPow2 2 = true ∧ isPow2 3 = false ∧ isPow2 0x80000000 = true ∧ isPow2 0x80000001 = false
      ∧ isPow2 0xFFFFFFFF = false := by decide

/-! ### The ring (section 3.3) -/

/-- V31, V33, V36, V38. -/
theorem test_at :
    said (exec (.ringAt 2) (sys t8a ring33)) = [.unitResult 0 (some 0xA0)]
      ∧ said (exec (.ringAt 8) (sys t8a ring33)) = [.unitResult 0 (some 0xA6)]
      ∧ said (exec (.ringAt (-7)) (sys t8a ring33)) = [.unitResult 0 (some 0xA7)]
      ∧ said (exec (.ringAt (-14)) (sys t8a ring33)) = [.unitResult 0 (some 0xA0)] := by decide
/-- V40. -/
theorem test_set :
    (inst0 (exec (.ringSet 3 0x22222222) (sys t8a ring33))).map (words 8) =
      some [0xA0, 0x22222222, 0xA2, 0xA3, 0xA4, 0xA5, 0xA6, 0xA7] := by decide
/-- Writing the word an unlisted address reads as keeps the ring canonical. -/
theorem test_set_zero_unlists :
    (inst0 (exec (.ringSet 0 0) (sys t8a ring33))).map (fun g => (g.ring.length, Ring.wf 8 g.ring)) =
      some (7, true) := by decide
/-- V43, V44, V46. -/
theorem test_advance :
    (inst0 (exec .advance (sys t8a ring33))).map (·.cursor) = some 7
      ∧ (inst0 (exec .advance (sys t8a { ring33 with cursor := 7 }))).map (·.cursor) = some 0
      ∧ (inst0 (exec .advance (sys t1 Instance.reset))).map (·.cursor) = some 0 := by decide
/-- V45. -/
theorem test_clrcur :
    (inst0 (exec .clrcur (sys t8a ring33))).map (fun g => (g.cursor, words 8 g)) = some (0, words 8 ring33) := by decide

/-! ### SEED (section 3.4) -/

/-- V50: `LEN > r`, words 6 and 7 consumed and ignored. -/
theorem test_seed_long :
    let t := step ((sys t5n Instance.reset).push
      (.command 0 0x10000007 [0x11111111, 0x22222222, 0x33333333, 0x44444444, 0x55555555, 0x66666666, 0x77777777]))
    (inst0 t).map (words 5) = some [0x11111111, 0x22222222, 0x33333333, 0x44444444, 0x55555555]
      ∧ (inst0 t).map (·.phase) = some .seeded ∧ said t = [.response 0 .ok (some 0)] ∧ left t = [] := by decide
/-- V54: a short re-seed keeps the ring, the cursor and `PHASE`, and sets the fault. -/
theorem test_seed_short :
    let t := step ((sys t8a (holding mixed 2 .seeded)).push (.command 0 0x10000003 [9, 9, 9]))
    inst0 t = some { holding mixed 2 .seeded with fault := true, cause := 2 }
      ∧ said t = [.response 0 (.raised .seedShort) none] := by decide

/-! ### NEXT (sections 3.5 and 3.6) -/

/-- V71: `T8A`, seed `MIXED`, step 6. -/
theorem test_next_t8a :
    let g := holding [0x12345673, 0x12345665, 0x12345648, 0x96345602, 0xEA345602, 0xFFFFFFFF, 0xDEADBEEF, 0x12345678]
      5 .seeded
    said (exec .next (sys t8a g)) = [.response 0 .ok (some 0x326C851D)]
      ∧ (inst0 (exec .next (sys t8a g))).map (fun h => (h.cursor, h.ring.read 5)) = some (6, 0x326C851D) := by decide
/-- V80: `T5N`, five taps, write offset 2, the cursor wraps. -/
theorem test_next_t5n :
    let g := holding [0x00018000, 1, 0x00010001, 1, 0x80008001] 4 .seeded
    (inst0 (exec .next (sys t5n g))).map (fun h => (h.cursor, words 5 h)) =
      some (0, [0x00018000, 0x00004000, 0x00010001, 1, 0x80008001]) := by decide
/-- V109, V120: tempering on the output only, and tempering stored back. -/
theorem test_next_tempered :
    said (exec .next (sys t8b (onesSeeded t8b))) = [.response 0 .ok (some 0x489)]
      ∧ (inst0 (exec .next (sys t8b (onesSeeded t8b)))).map (·.ring.read 0) = some 9
      ∧ (inst0 (exec .next (sys t8c (holding [0x1209, 0x241001, 1, 1, 1, 1, 1, 1] 2 .seeded)))).map
          (·.ring.read 2) = some 0x48040209 := by decide
/-- V160, V178, V179: unseeded; a raise in `RECUR` and one in `TEMPER` discard the whole command. -/
theorem test_next_faults :
    inst0 (exec .next (sys t8a Instance.reset)) = some { Instance.reset with fault := true, cause := 1 }
      ∧ inst0 (nextWith t8bad (sys t8a (holding mixed 0 .seeded))) =
          some { holding mixed 0 .seeded with fault := true, cause := 3 }
      ∧ inst0 (nextWith t8cbad (sys t8c (holding mixed 0 .seeded))) =
          some { holding mixed 0 .seeded with fault := true, cause := 3 } := by decide

/-! ### MIN, MAX, SIZE, EQ (sections 3.7 and 3.8) -/

/-- V138 to V140, V147 to V149. -/
theorem test_min_max_size :
    said (exec .min (sys t5n Instance.reset)) = [.response 0 .ok (some 0)]
      ∧ said (exec .max (sys t8a (faulted .nextUnseeded Instance.reset))) = [.response 0 .ok (some 0xFFFFFFFF)]
      ∧ said (exec .size (sys t5n Instance.reset)) = [.response 0 .ok (some 5)] := by decide
/-- V150, V151, V157: fresh instances are equal; the ring alone or the cursor alone makes them unequal. -/
theorem test_eq :
    said (exec (.eq 1) (sys t8a Instance.reset)) = [.response 0 .ok (some 1)]
      ∧ said (exec (.eq 1) (sys t8a (onesSeeded t8a))) = [.response 0 .ok (some 0)]
      ∧ said (exec (.eq 1) (sys t8a { Instance.reset with cursor := 1 })) = [.response 0 .ok (some 0)] := by decide

/-! ### TEMPER (section 3.6) -/

/-- V100, V101: the constant is ignored. -/
theorem test_temper_raw :
    said (exec (.temperA 0x12345673 7) (sys t8a Instance.reset)) = [.unitResult 0 (some 0x12345673)]
      ∧ said (exec (.temperNone 0xFFFFFFFF (-11)) (sys t8a Instance.reset)) = [.unitResult 0 (some 0xFFFFFFFF)] := by
  decide
/-- V103, V105, V106, V107. -/
theorem test_temper_pass :
    said (exec (.temperB 0x12345673 (-11)) (sys t8a Instance.reset)) = [.unitResult 0 (some 0x123610F9)]
      ∧ said (exec (.temperC 0x123610EF (-11)) (sys t8a Instance.reset)) = [.unitResult 0 (some 0x1234562D)]
      ∧ said (exec (.temperB 0xDEADBEEF 0) (sys t8a Instance.reset)) = [.unitResult 0 (some 0xDEADBEEF)]
      ∧ said (exec (.temperC 0xFFFFFFFF 31) (sys t8a Instance.reset)) = [.unitResult 0 (some 0x7FFFFFFF)] := by decide

/-! ### The port: order of checks (section 3.9), framing, reset -/

/-- V162, V164, V166: a faulted instance refuses everything but a legal `MIN`, `MAX`, `SIZE`; data words are consumed. -/
theorem test_faulted_port :
    let s := sys t8a (faulted .nextUnseeded Instance.reset)
    said (step (s.push (.command 0 0x10000002 [1, 1, 0x20000000]))) = [.response 0 .faulted none]
      ∧ left (step (s.push (.command 0 0x10000002 [1, 1, 0x20000000]))) = [.command 0 0x20000000 []]
      ∧ said (step (s.push (.command 0 0x00000000 []))) = [.response 0 .faulted none]
      ∧ said (step (s.push (.command 0 0x30000001 []))) = [.response 0 .faulted none]
      ∧ said (step (s.push (.command 0 0x30000000 []))) = [.response 0 .ok (some 0)] := by decide
/-- V170, V174, V177: an illegal word on an unfaulted instance, the unseeded one included. -/
theorem test_illegal_port :
    inst0 (step ((sys t8a (onesSeeded t8a)).push (.command 0 0x00000000 []))) =
        some { onesSeeded t8a with fault := true, cause := 4 }
      ∧ said (step ((sys t8a Instance.reset).push (.command 0 0x20000001 []))) =
        [.response 0 (.raised .illegalCommand) none] := by decide
/-- V168: reset clears the fault; the other instance is untouched. -/
theorem test_reset_signal :
    inst0 (step ((sys t8a (faulted .illegalCommand (onesSeeded t8a))).push (.reset 0))) = some Instance.reset
      ∧ said (step ((sys t8a ring33).push (.reset 0))) = [] := by decide
/-- A `SEED` short of data words has no move (R187). -/
theorem test_truncated_seed :
    ran (step ((sys t8a Instance.reset).push (.command 0 0x10000008 [1, 1]))) = false := by decide
/-- The assembler (R71, R72; program P4, line 1, and P5, line 9). -/
theorem test_assemble :
    assemble 8 [(0, .seedOnes), (1, .skip 2), (0, .word 0x20000001), (0, .eq 1)] =
      [.command 0 0x10000008 [1, 1, 1, 1, 1, 1, 1, 1], .command 1 0x20000000 [], .command 1 0x20000000 [],
        .command 0 0x20000001 [], .command 0 0x60000001 []] := by decide

/-! ### Witnesses: states and operands that meet all hypotheses of a statement together, at the ends of each clause -/

/-- A seeded, unfaulted instance beside a fresh one: `T8A`. -/
def good : State := sys t8a ring33
/-- A faulted instance, never seeded, beside a fresh one. -/
def bad : State := sys t8a (faulted .nextUnseeded Instance.reset)

theorem reset_ok (r : Nat) (h : 0 < r) : Instance.reset.Ok r := ⟨rfl, h, fun _ => rfl, nofun⟩
theorem ring33_ok : ring33.Ok 8 := ⟨by decide, by decide, fun _ => rfl, fun h => absurd h (by decide)⟩
theorem faulted_ok : (faulted .nextUnseeded Instance.reset).Ok 8 :=
  ⟨by decide, by decide, fun h => absurd h (by decide), fun _ => ⟨.nextUnseeded, rfl⟩⟩

theorem test_witness_DecodeEncodeRoundTrip :
    ([.seed [], .seed [7, 8], .next, .min, .max, .size, .eq 0, .eq 1, .ringAt (-9), .ringSet 9 1, .advance, .clrcur,
        .mix 1 (-31), .mix 1 0, .mix 1 31, .temperNone 1 (-32), .temperA 1 31, .temperB 1 (-31), .temperC 1 31] :
      List Instr).all (Instr.wf 2) = true ∧ encode (.seed [7, 8]) = .host 0x10000002 [7, 8] := by decide
theorem test_witness_DecodeReadsOnlyEncodings :
    decodeHost 2 0x10000002 [7, 8, 9] = .instr (.seed [7, 8]) [9] ∧ decodeHost 2 0x60000001 [9] = .instr (.eq 1) [9] := by
  decide
/-- Both sides of the equivalence, at the ends of each clause, and the legal neighbours. -/
theorem test_witness_IllegalWordsAreExactlyThese :
    cwOpc 0x0FFFFFFF = 0 ∧ (cwOpc 0x70000000).toNat = 7 ∧ (cwOpc 0xFFFFFFFF).toNat = 15 ∧ cwOpc 0x20000001 = 2
      ∧ cwArg 0x20000001 ≠ 0 ∧ cwOpc 0x5FFFFFFF = 5 ∧ cwOpc 0x60000002 = 6 ∧ (cwArg 0x60000002).toNat = 2
      ∧ (∃ why left, decodeHost 2 0xFFFFFFFF [] = .illegal why left)
      ∧ (∃ why left, decodeHost 2 0x60000002 [] = .illegal why left)
      ∧ decodeHost 2 0x60000001 [] = .instr (.eq 1) [] :=
  ⟨by decide, by decide, by decide, by decide, by decide, by decide, by decide, by decide, ⟨_, _, rfl⟩, ⟨_, _, rfl⟩,
    by decide⟩
/-- No words left over, and one left over; an answer `OK` and a fault. -/
theorem test_witness_SeedWordsAreConsumedWhateverTheOutcome :
    cwOpc 0x10000008 = 1 ∧ (∃ t, step (good.push (.command 0 0x10000008 [1, 2, 3, 4, 5, 6, 7, 8])) = .next t)
      ∧ (∃ t, step (good.push (.command 0 0x10000001 [1, 0x20000000])) = .next t) :=
  ⟨by decide, ⟨_, rfl⟩, ⟨_, rfl⟩⟩
theorem test_witness_StoredDescriptorRoundTrip : t5n.wf = true ∧ t8cr.wf = true := by decide
theorem test_witness_DescriptorIsImmutable : ∃ t, step (good.push (.command 0 0x20000000 [])) = .next t := ⟨_, rfl⟩
theorem test_witness_MixReturnsShiftXor :
    good.insts[good.sel]? = some ring33 ∧ ∀ k ∈ [-31, -1, 0, 1, 31], (-31 : Int) ≤ k ∧ k ≤ 31 := by decide
theorem test_witness_ShiftOutOfRangeTakesFaultEntry :
    good.insts[good.sel]? = some ring33 ∧ ring33.fault = false ∧ ∀ k ∈ [-40, -32, 32, 40], 32 ≤ k ∨ k ≤ (-32 : Int) := by
  decide
theorem test_witness_MixIsLinear : ∀ k ∈ [-31, 0, 31], (-31 : Int) ≤ k ∧ k ≤ 31 := by decide
theorem test_witness_MixIsBijective : ∀ k ∈ [-31, 0, 31], (-31 : Int) ≤ k ∧ k ≤ 31 := by decide
theorem test_witness_AtReturnsAddressedWord : good.insts[good.sel]? = some ring33 := by decide
theorem test_witness_SetWritesExactlyOneWord :
    good.insts[good.sel]? = some ring33 ∧ Ring.wf good.desc.r ring33.ring = true := by decide
theorem test_witness_AdvanceMovesTheCursorByOne :
    good.insts[good.sel]? = some ring33 ∧ ring33.cursor < good.desc.r
      ∧ (sys t1 Instance.reset).insts[0]? = some Instance.reset ∧ Instance.reset.cursor < t1.r := by decide
theorem test_witness_ClrcurClearsTheCursor : good.insts[good.sel]? = some ring33 ∧ 0 < good.desc.r ∧ 7 < good.desc.r := by
  decide
theorem test_witness_OffsetsWrapModuloR : 1 ≤ t1.r ∧ 1 ≤ t8a.r ∧ (8 : Int) ∣ 11 - 3 ∧ ¬ (8 : Int) ∣ 4 - 3 := by decide
theorem test_witness_SetThenAt :
    1 ≤ t8a.r ∧ Ring.wf t8a.r ring33.ring = true ∧ (8 : Int) ∣ 3 - (-5) ∧ ¬ (8 : Int) ∣ 3 - 4 := by decide
/-- `LEN = r` and `LEN > r`. -/
theorem test_witness_SeedLoadsTheRing :
    good.insts[good.sel]? = some ring33 ∧ ring33.fault = false ∧ good.desc.r ≤ mixed.length
      ∧ good.desc.r ≤ (mixed ++ [9]).length ∧ Ring.wf good.desc.r ring33.ring = true := by decide
/-- Both sides at `LEN = r - 1`. -/
theorem test_witness_ShortSeedTakesFaultEntry :
    good.insts[good.sel]? = some ring33 ∧ ring33.fault = false ∧ [1, 2, 3, 4, 5, 6, 7].length < good.desc.r
      ∧ good.desc.r = mixed.length := by decide
theorem test_witness_SeedReplacesPriorState :
    t8a.wf = true ∧ Ring.wf t8a.r ring33.ring = true ∧ Ring.wf t8a.r Instance.reset.ring = true
      ∧ t8a.r ≤ mixed.length ∧ mixed.take t8a.r = (mixed ++ [9, 9]).take t8a.r := by decide
/-- Stored back, and not; the cursor at `r - 1` too. -/
theorem test_witness_NextWritesOneWordAndAnswers :
    (∀ s ∈ [sys t8c (holding mixed 7 .seeded), sys t8b (holding mixed 7 .seeded), sys t8a (holding mixed 7 .seeded)],
        s.insts[s.sel]? = some (holding mixed 7 .seeded) ∧ s.desc.r = 8)
      ∧ Ring.wf 8 (holding mixed 7 .seeded).ring = true ∧ (holding mixed 7 .seeded).fault = false
      ∧ (holding mixed 7 .seeded).phase = .seeded ∧ t8c.storesBack = true ∧ t8b.storesBack = false := by decide
theorem test_witness_UnseededNextTakesFaultEntry :
    (sys t8a Instance.reset).insts[0]? = some Instance.reset ∧ Instance.reset.fault = false
      ∧ Instance.reset.phase = .unseeded := by decide
theorem test_witness_RecurrenceIsTheLeftFold :
    t8a.wf = true ∧ t8a.P = 0 :: [1, 7] ∧ t8a.K = 3 :: [-5, 0] := by decide
theorem test_witness_RecurrenceIsLinear :
    let g : Instance := { Instance.reset with ring := [(0, 5)] }
    let h : Instance := { Instance.reset with ring := [(0, 3)] }
    let x : Instance := { Instance.reset with ring := [(0, 6)] }
    t8a.wf = true ∧ h.cursor = g.cursor ∧ x.cursor = g.cursor
      ∧ ∀ a, Ring.read x.ring a = Ring.read g.ring a ^^^ Ring.read h.ring a := by
  refine ⟨by decide, rfl, rfl, fun a => ?_⟩
  by_cases h : a = 0 <;> simp [Ring.read, resetWord, h]
theorem test_witness_CheckedDescriptorNeverRaisesInNext : t5n.wf = true := by decide
/-- A raise in `RECUR`, and one in `TEMPER` alone. -/
theorem test_witness_ShiftRangeDiscardsTheWholeNext :
    good.insts[good.sel]? = some ring33 ∧ ring33.fault = false ∧ ring33.phase = .seeded
      ∧ recur t8bad ring33 = none ∧ ∃ z, recur t8cbad ring33 = some z ∧ temper t8cbad z = none :=
  ⟨by decide, by decide, by decide, by decide, ⟨_, rfl, by decide⟩⟩
theorem test_witness_SingleWriteNextIsEquivalent : t8c.wf = true ∧ Ring.wf t8c.r ring33.ring = true := by decide
/-- Each tag, stored back and not. -/
theorem test_witness_OutputIsReadFromThePostState :
    (∀ d ∈ [t8a, t8b, t8c, { t8a with tag := .none }], d.wf = true ∧ Ring.wf d.r ring33.ring = true
        ∧ (nextStep d ring33).isSome = true)
      ∧ t8c.storesBack = true ∧ t8b.storesBack = false ∧ t8b.tag = .b := by decide
theorem test_witness_ZeroRingIsAFixedPoint :
    t8a.wf = true ∧ Ring.wf t8a.r Instance.reset.ring = true ∧ ∀ a, Ring.read Instance.reset.ring a = 0 :=
  ⟨by decide, by decide, fun _ => rfl⟩
/-- Stored back and not, the cursor at both ends, `r = 1`. -/
theorem test_witness_WrittenSlotIsTheOldest :
    (∀ d ∈ [t8a, t8c], d.wf = true ∧ Ring.wf d.r (holding mixed 0 .seeded).ring = true
        ∧ (holding mixed 0 .seeded).cursor < d.r ∧ (holding mixed 7 .seeded).cursor < d.r)
      ∧ t1.wf = true ∧ Ring.wf t1.r Instance.reset.ring = true ∧ Instance.reset.cursor < t1.r := by decide
theorem test_witness_OutputsDependOnSeedAlone :
    t8a.wf = true ∧ Ring.wf t8a.r ring33.ring = true ∧ Ring.wf t8a.r Instance.reset.ring = true
      ∧ t8a.r ≤ mixed.length ∧ mixed.take t8a.r = (mixed ++ [9, 9]).take t8a.r := by decide
/-- Faulted and unseeded, and neither. -/
theorem test_witness_MinAnswersInEveryState :
    good.insts[good.sel]? = some ring33 ∧ bad.insts[bad.sel]? = some (faulted .nextUnseeded Instance.reset) := by decide
theorem test_witness_MaxAnswersInEveryState :
    good.insts[good.sel]? = some ring33 ∧ bad.insts[bad.sel]? = some (faulted .nextUnseeded Instance.reset) := by decide
theorem test_witness_SizeAnswersInEveryState :
    good.desc.r < 2 ^ 32 ∧ good.insts[good.sel]? = some ring33
      ∧ bad.insts[bad.sel]? = some (faulted .nextUnseeded Instance.reset) := by decide
/-- The peer is another instance, and the instance itself. -/
theorem test_witness_EqComparesRingAndCursor :
    good.insts[good.sel]? = some ring33 ∧ ring33.fault = false ∧ good.insts[(1 : BitVec 28).toNat]? = some Instance.reset
      ∧ good.insts[(0 : BitVec 28).toNat]? = some ring33 := by decide
theorem test_witness_EqualityIsAnEquivalence :
    sameValue 8 ring33 ring33 = true ∧ sameValue 8 ring33 Instance.reset = false ∧ Ring.wf 8 ring33.ring = true
      ∧ Ring.wf 8 Instance.reset.ring = true := by decide
theorem test_witness_TemperReturnsTransformedWord :
    good.insts[good.sel]? = some ring33 ∧ ∀ k ∈ [-31, 0, 31], (-31 : Int) ≤ k ∧ k ≤ 31 := by decide
theorem test_witness_TemperIsALinearBijection :
    ∀ d ∈ [t8a, t8b, t8c, { t8a with tag := .none }], d.wf = true := by decide
theorem test_witness_WithoutStoreBackOnlyOutputsDiffer : t8b.wf = true ∧ t8b.storesBack = false := by decide
theorem test_witness_FaultedCommandsAreRefused :
    bad.insts[bad.sel]? = some (faulted .nextUnseeded Instance.reset)
      ∧ (faulted .nextUnseeded Instance.reset).fault = true := by decide
/-- A `SEED` with all its words and one more, a legal `NEXT`, an illegal `MIN`. -/
theorem test_witness_FaultedPortRefusesEveryOtherWord :
    bad.insts[0]? = some (faulted .nextUnseeded Instance.reset) ∧ (faulted .nextUnseeded Instance.reset).fault = true
      ∧ (∀ cw ∈ ([0x10000002, 0x20000000, 0x30000001] : List Word), (cwOpc cw = 1 → (cwArg cw).toNat ≤ [1, 2].length)
          ∧ cw ≠ 0x30000000#32 ∧ cw ≠ 0x40000000#32 ∧ cw ≠ 0x50000000#32
          ∧ (bad.push (.command 0 cw [1, 2])).pending = .command 0 cw [1, 2] :: bad.pending) :=
  ⟨by decide, by decide, by simp [cwOpc, cwArg, bad, sys, State.push]⟩
theorem test_witness_IllegalWordTakesFaultEntry :
    (good.push (.command 0 0x60000002 [5])).pending = .command 0 0x60000002 [5] :: good.pending
      ∧ good.insts[0]? = some ring33 ∧ ring33.fault = false ∧ cwOpc 0x60000002 = 6
      ∧ good.insts.length ≤ (cwArg 0x60000002).toNat := by decide
theorem test_witness_FaultEntryIsPrecise :
    ∃ t, exec (.mix 1 32) good = .next t ∧ good.insts[good.sel]? = some ring33
      ∧ t.insts[good.sel]? = some (faulted .shiftRange ring33) ∧ ring33.fault = false
      ∧ (faulted .shiftRange ring33).fault = true := ⟨_, rfl, by decide⟩
/-- A host's input, and a unit's. -/
theorem test_witness_FaultIsStickyUntilReset :
    (∃ t, step (bad.push (.command 0 0x10000000 [])) = .next t)
      ∧ (∃ t, step (bad.push (.ringOp 0 1 0 5)) = .next t)
      ∧ bad.insts[0]? = some (faulted .nextUnseeded Instance.reset)
      ∧ (faulted .nextUnseeded Instance.reset).fault = true
      ∧ (bad.push (.command 0 0x10000000 [])).pending.head? ≠ some (.reset 0)
      ∧ (bad.push (.ringOp 0 1 0 5)).pending.head? ≠ some (.reset 0)
      ∧ (∀ x, (bad.push (.command 0 0x10000000 [])).pending.head? = some x → x.fromHost = true) :=
  ⟨⟨_, rfl⟩, ⟨_, rfl⟩, by decide, by decide, by decide, by decide, by rintro _ ⟨⟩; rfl⟩
theorem test_witness_ShiftRangeIsUnreachableFromTheHost :
    let s := good.push (.command 0 0x20000000 [])
    (∀ x, s.pending.head? = some x → x.fromHost = true) ∧ (∀ g ∈ s.insts, g.cause ≠ 3#4)
      ∧ ∃ t, step s = .next t :=
  ⟨by rintro _ ⟨⟩; rfl, by decide, ⟨_, rfl⟩⟩
theorem test_witness_StepRunsTheDecodedInstruction :
    (good.push (.command 0 0x10000001 [1, 2])).pending = .command 0 0x10000001 [1, 2] :: good.pending
      ∧ decodeHost good.insts.length 0x10000001 [1, 2] = .instr (.seed [1]) [2]
      ∧ decodeHost good.insts.length 0x20000000 [] = .instr .next []
      ∧ (good.push (.ringOp 1 0 (-1) 0)).pending = .ringOp 1 0 (-1) 0 :: good.pending
      ∧ (good.push (.mixOp 1 5 7)).pending = .mixOp 1 5 7 :: good.pending
      ∧ (good.push (.temperOp 1 2 5 7)).pending = .temperOp 1 2 5 7 :: good.pending := by decide
theorem test_witness_EncodedInstructionRuns : Instr.wf good.insts.length (.eq 1) = true := by decide
theorem test_witness_IdleKeepsAllState : good.pending = [] := by decide
/-- A complete `SEED`, a truncated one, the reset signal. -/
theorem test_witness_HostInputAlwaysTerminates :
    ∀ x ∈ [Input.command 1 0x10000001 [1], .command 1 0x10000001 [], .reset 1],
      (good.push x).pending = x :: good.pending ∧ x.fromHost = true ∧ x.port < good.insts.length := by decide
theorem test_witness_OneResponsePerCommand :
    (good.push (.command 0 0x00000000 [])).pending = .command 0 0x00000000 [] :: good.pending
      ∧ (∃ t, step (good.push (.command 0 0x00000000 [])) = .next t)
      ∧ ∃ t, step (good.push (.command 0 0x20000000 [])) = .next t :=
  ⟨by decide, ⟨_, rfl⟩, ⟨_, rfl⟩⟩
/-- Set by a `SEED`, cleared by the reset signal. -/
theorem test_witness_PhaseChangesOnlyBySeedAndReset :
    (∃ t g', step ((sys t1 Instance.reset).push (.command 0 0x10000001 [5])) = .next t ∧ t.insts[0]? = some g'
        ∧ g'.phase ≠ Instance.reset.phase)
      ∧ (∃ t g', step (good.push (.reset 0)) = .next t ∧ t.insts[0]? = some g' ∧ g'.phase ≠ ring33.phase)
      ∧ good.insts[0]? = some ring33 ∧ (sys t1 Instance.reset).insts[0]? = some Instance.reset :=
  ⟨⟨_, _, rfl, rfl, by decide⟩, ⟨_, _, rfl, rfl, by decide⟩, by decide, by decide⟩
theorem test_witness_ResetSignalRestoresResetValues :
    (bad.push (.reset 0)).pending = .reset 0 :: bad.pending ∧ 0 < bad.insts.length ∧ 1 < bad.insts.length := by decide
theorem test_witness_EveryStepKeepsTheInvariant :
    (good.push (.command 0 0x20000000 [])).Inv ∧ (bad.push (.mixOp 0 0b100000 1)).Inv
      ∧ (∃ t, step (good.push (.command 0 0x20000000 [])) = .next t)
      ∧ ∃ t, step (bad.push (.mixOp 0 0b100000 1)) = .next t := by
  refine ⟨⟨by decide, by decide, ?_⟩, ⟨by decide, by decide, ?_⟩, ⟨_, rfl⟩, ⟨_, rfl⟩⟩
  · intro g hg
    have : g = ring33 ∨ g = Instance.reset := by simpa [good, sys, State.push] using hg
    rcases this with rfl | rfl
    · exact ring33_ok
    · exact reset_ok 8 (by decide)
  · intro g hg
    have : g = faulted .nextUnseeded Instance.reset ∨ g = Instance.reset := by
      simpa [bad, sys, State.push] using hg
    rcases this with rfl | rfl
    · exact faulted_ok
    · exact reset_ok 8 (by decide)
theorem test_witness_UnseededInstancesStayFresh :
    let s := bad.push (.command 1 0x20000000 [])
    (∀ x, s.pending.head? = some x → x.fromHost = true) ∧ (∀ g ∈ s.insts, g.FreshUnlessSeeded)
      ∧ ∃ t, step s = .next t :=
  ⟨by rintro _ ⟨⟩; rfl, by simp only [Instance.FreshUnlessSeeded]; decide, ⟨_, rfl⟩⟩
theorem test_witness_OtherInstancesAreUntouched :
    let x := Input.command 0 0x20000000 []
    (∃ t, step (good.push x) = .next t) ∧ (good.push x).pending.head? = some x ∧ 1 ≠ x.port :=
  ⟨⟨_, rfl⟩, by decide, by decide⟩
theorem test_witness_CommandsOfDifferentInstancesCommute :
    0 ≠ 1 ∧ 0 < good.insts.length ∧ 1 < good.insts.length
      ∧ (∀ i ∈ [Instr.next, .seed [1]], i.isCommand = true ∧ i.wf good.insts.length = true ∧ ∀ e, i ≠ .eq e) :=
  ⟨by decide, by decide, by decide, by
    intro i hi
    have : i = .next ∨ i = .seed [1] := by simpa using hi
    rcases this with rfl | rfl <;> exact ⟨by decide, by decide, nofun⟩⟩

end Sys2Proof.Tests
end

section
/-! The proofs about the state as a whole (10_state.md R22, R30, R31, R33): what the decoder can hand to a step, what a step
can do to the instance it is for, and the invariants that follow. -/

namespace Sys2Proof.Machine

/-! ### What a command word can ask for -/

/-- THE DECODER'S INVERSION LEMMA: the three ways a command port's words select an operation (30_encoding.md R61, R69, R70). -/
theorem decodeHost_instr {n : Nat} {cw : Word} {ws left : List Word} {i : Instr}
    (h : decodeHost n cw ws = .instr i left) :
    (cwOpc cw = 1#4 ∧ (cwArg cw).toNat ≤ ws.length ∧ i = .seed (ws.take (cwArg cw).toNat)
        ∧ left = ws.drop (cwArg cw).toNat)
      ∨ (cwArg cw = 0#28 ∧ left = ws ∧
          ((cwOpc cw = 2#4 ∧ i = .next) ∨ (cwOpc cw = 3#4 ∧ i = .min) ∨ (cwOpc cw = 4#4 ∧ i = .max)
            ∨ (cwOpc cw = 5#4 ∧ i = .size)))
      ∨ (cwOpc cw = 6#4 ∧ (cwArg cw).toNat < n ∧ i = .eq (cwArg cw) ∧ left = ws) := by
  have plain : ∀ {j : Instr} {o : BitVec 4}, decodePlain j o (cwArg cw) ws = .instr i left →
      cwArg cw = 0#28 ∧ left = ws ∧ i = j := by
    intro j o hj
    unfold decodePlain at hj
    split at hj <;> cases hj
    exact ⟨‹_›, rfl, rfl⟩
  obtain ⟨ho, hd⟩ | ⟨ho, hd⟩ | ⟨ho, hd⟩ | ⟨ho, hd⟩ | ⟨ho, hd⟩ | ⟨ho, hd⟩ | ⟨-, hd⟩ := decodeHost_cases n cw ws <;>
    rw [hd] at h
  · unfold decodeSeed at h
    split at h <;> cases h
    exact .inl ⟨ho, ‹_›, rfl, rfl⟩
  · obtain ⟨ha, hl, hi⟩ := plain h
    exact .inr (.inl ⟨ha, hl, .inl ⟨ho, hi⟩⟩)
  · obtain ⟨ha, hl, hi⟩ := plain h
    exact .inr (.inl ⟨ha, hl, .inr (.inl ⟨ho, hi⟩)⟩)
  · obtain ⟨ha, hl, hi⟩ := plain h
    exact .inr (.inl ⟨ha, hl, .inr (.inr (.inl ⟨ho, hi⟩))⟩)
  · obtain ⟨ha, hl, hi⟩ := plain h
    exact .inr (.inl ⟨ha, hl, .inr (.inr (.inr ⟨ho, hi⟩))⟩)
  · unfold decodeEq at h
    split at h <;> cases h
    exact .inr (.inr ⟨ho, by omega, rfl, rfl⟩)
  · cases h

/-- A command port selects format H operations only (R61, R65). -/
theorem decodeHost_isCommand {n : Nat} {cw : Word} {ws left : List Word} {i : Instr}
    (h : decodeHost n cw ws = .instr i left) : i.isCommand = true := by
  obtain ⟨-, -, rfl, -⟩ | ⟨-, -, ⟨-, rfl⟩ | ⟨-, rfl⟩ | ⟨-, rfl⟩ | ⟨-, rfl⟩⟩ | ⟨-, -, rfl, -⟩ := decodeHost_instr h <;> rfl

/-- A `SEED` comes from opcode 1 and carries exactly `LEN` words (R61, R70). -/
theorem decodeHost_seed {n : Nat} {cw : Word} {ws left data : List Word}
    (h : decodeHost n cw ws = .instr (.seed data) left) :
    cwOpc cw = 1#4 ∧ data.length = (cwArg cw).toNat := by
  obtain ⟨ho, hl, hi, -⟩ | ⟨-, -, ⟨-, hi⟩ | ⟨-, hi⟩ | ⟨-, hi⟩ | ⟨-, hi⟩⟩ | ⟨-, -, hi, -⟩ := decodeHost_instr h <;> cases hi
  exact ⟨ho, by simp [hl]⟩

theorem decodeRing_not_command (rop : BitVec 2) (off : Int) (v : Word) : (decodeRing rop off v).isCommand = false := by
  unfold decodeRing
  split
  · rfl
  split
  · rfl
  split <;> rfl

theorem decodeTemper_not_command (tf : BitVec 2) (ktf : BitVec 6) (z : Word) :
    (decodeTemper tf ktf z).isCommand = false := by
  unfold decodeTemper
  cases tagOfCode tf <;> rfl

/-- Where an instruction that runs came from: words on a command port, or a unit's own port, which no host reaches and which
carries no command (R65). -/
theorem fetch_run {s t : State} {i : Instr} {x : Input} (h : fetch s = .run i t) (hx : s.pending.head? = some x) :
    (∃ cw ws left, x = .command x.port cw ws ∧ decodeHost s.nInst cw ws = .instr i left)
      ∨ (x.fromHost = false ∧ i.isCommand = false) := by
  obtain ⟨rest, hp⟩ := List.head?_eq_some_iff.mp hx
  unfold fetch at h
  rw [hp] at h
  cases x with
  | command port cw ws =>
    simp only [fetchCommand] at h
    split at h <;> cases h
    exact .inl ⟨cw, ws, _, rfl, ‹_›⟩
  | ringOp port rop off v => cases h; exact .inr ⟨rfl, decodeRing_not_command rop off v⟩
  | mixOp port kf v => cases h; exact .inr ⟨rfl, rfl⟩
  | temperOp port tf ktf z => cases h; exact .inr ⟨rfl, decodeTemper_not_command tf ktf z⟩
  | reset port => cases h

/-! ### What a step can do to the instance its input is for -/

/-- The new state a step on the input `x` gives the instance `x` is for: an instruction's effect, fault entry on an illegal
word (or its refusal), or the reset values. -/
inductive StepEffect (s : State) (x : Input) (g : Instance) : Instance → Prop where
  | run {i : Instr} {t : State} {g' : Instance} (hf : fetch s = .run i t) (he : Effect s.desc.toDescriptor g i g') :
      StepEffect s x g g'
  | refused : StepEffect s x g g
  | illegal : StepEffect s x g (g.latch .illegalCommand)
  | reset (hx : x = .reset x.port) : StepEffect s x g Instance.reset

/-- THE STEP'S FRAME: an idle step changes nothing; any other selects the port of its input, gives that port's instance a new
state, and leaves the descriptor and every other instance alone. -/
theorem step_next {s t : State} (h : step s = .next t) :
    (s.pending = [] ∧ t = s) ∨
      ∃ x g g', s.pending.head? = some x ∧ s.insts[x.port]? = some g ∧ StepEffect s x g g' ∧
        t.desc = s.desc ∧ t.sel = x.port ∧ t.insts = s.insts.set x.port g' := by
  obtain idle | ⟨x, rest, q, hp, ⟨i, hf, h⟩ | ⟨w, -, h⟩ | ⟨hx, h⟩⟩ := step_cases h
  · exact .inl idle
  all_goals
    right
    have hhead : s.pending.head? = some x := by rw [hp]; rfl
  · obtain ⟨g, g', rep, hg, he, rfl⟩ := exec_shaped h
    exact ⟨x, g, g', hhead, hg, .run hf he, rfl, rfl, rfl⟩
  · obtain ⟨g, hg, ⟨-, rfl⟩ | ⟨-, rfl⟩⟩ := illegalCommand_next h
    · have hput := congrArg State.insts (State.putInst_same hg)
      exact ⟨x, g, g, hhead, hg, .refused, rfl, rfl, hput.symm⟩
    · exact ⟨x, g, _, hhead, hg, .illegal, rfl, rfl, rfl⟩
  · obtain ⟨g, hg, rfl⟩ := resetSignal_next h
    exact ⟨x, g, _, hhead, hg, .reset hx, rfl, rfl, rfl⟩

/-! ### The machine's invariant (10_state.md R31) -/

theorem StepEffect.ok {s : State} {x : Input} {g g' : Instance} (h : StepEffect s x g g') (hg : g.Ok s.desc.r) :
    g'.Ok s.desc.r := by
  have hr : 0 < s.desc.r := Descriptor.wf_r s.desc.ok
  cases h with
  | run hf he => exact he.ok hr hg
  | refused => exact hg
  | illegal => exact hg.latch _
  | reset hx => exact .reset hr

/-- Settles O57: only the instance the input is for changes, and every effect a step can have on it keeps it good. -/
theorem everyStepKeepsTheInvariant : Obligations.EveryStepKeepsTheInvariant := by
  intro s t hs h
  obtain ⟨-, rfl⟩ | ⟨x, g, g', -, hg, he, hdesc, hsel, hinsts⟩ := step_next h
  · exact hs
  refine ⟨t.desc.ok, ?_, ?_⟩
  · obtain ⟨hlt, -⟩ := List.getElem?_eq_some_iff.mp hg
    simpa [State.nInst, hsel, hinsts] using hlt
  · rw [hinsts, hdesc]
    intro k hk
    obtain hk | rfl := List.mem_or_eq_of_mem_set hk
    · exact hs.insts k hk
    · exact he.ok (hs.insts g (List.mem_of_getElem? hg))

/-! ### Unseeded instances under host traffic (R33) -/

theorem Instance.FreshUnlessSeeded.latch {g : Instance} (h : g.FreshUnlessSeeded) (c : Cause) :
    (g.latch c).FreshUnlessSeeded := by
  obtain ⟨hring, hcursor, hphase⟩ := Instance.latch_keeps c g
  unfold Instance.FreshUnlessSeeded
  rwa [hring, hcursor, hphase]

/-- A seeded instance meets the condition whatever its ring holds. -/
theorem Instance.freshUnlessSeeded_of_seeded {g : Instance} (h : g.phase = .seeded) : g.FreshUnlessSeeded :=
  fun hu => absurd (h.symm.trans hu) nofun

/-- The two commands that write a ring leave their instance seeded (R33). -/
theorem Effect.freshUnlessSeeded {d : Descriptor} {g g' : Instance} {i : Instr} (h : Effect d g i g')
    (hi : i.isCommand = true) (hg : g.FreshUnlessSeeded) : g'.FreshUnlessSeeded := by
  cases h with
  | same => exact hg
  | latch _ c => exact hg.latch c
  | seed data => exact Instance.freshUnlessSeeded_of_seeded rfl
  | next _ y _ hp hn => exact Instance.freshUnlessSeeded_of_seeded ((nextStep_flags hn).1.trans hp)
  | ringSet => cases hi
  | advance => cases hi
  | clrcur => cases hi

theorem StepEffect.freshUnlessSeeded {s : State} {x : Input} {g g' : Instance} (h : StepEffect s x g g')
    (hx : s.pending.head? = some x) (hhost : x.fromHost = true) (hg : g.FreshUnlessSeeded) : g'.FreshUnlessSeeded := by
  cases h with
  | run hf he =>
    obtain ⟨cw, ws, left, -, hd⟩ | ⟨hunit, -⟩ := fetch_run hf hx
    · exact he.freshUnlessSeeded (decodeHost_isCommand hd) hg
    · rw [hhost] at hunit; cases hunit
  | refused => exact hg
  | illegal => exact hg.latch _
  | reset => exact fun _ => ⟨rfl, rfl⟩

/-- Settles O58: a host's input runs commands only, and of these only a `SEED` and a `NEXT` of a seeded instance write a
ring. -/
theorem unseededInstancesStayFresh : Obligations.UnseededInstancesStayFresh := by
  intro s t hhost hfresh h
  obtain ⟨-, rfl⟩ | ⟨x, g, g', hx, hg, he, -, -, hinsts⟩ := step_next h
  · exact hfresh
  rw [hinsts]
  intro k hk
  obtain hk | rfl := List.mem_or_eq_of_mem_set hk
  · exact hfresh k hk
  · exact he.freshUnlessSeeded hx (hhost x hx) (hfresh g (List.mem_of_getElem? hg))

/-! ### The phase (R22, R108, R181) -/

/-- Only a long enough `SEED` writes `PHASE`. -/
theorem Effect.phase {d : Descriptor} {g g' : Instance} {i : Instr} (h : Effect d g i g') :
    g'.phase = g.phase ∨ (g'.phase = .seeded ∧ ∃ data, i = .seed data ∧ d.r ≤ data.length) := by
  cases h with
  | same => exact .inl rfl
  | latch _ c => exact .inl (Instance.latch_keeps c g).2.2
  | seed data _ hl => exact .inr ⟨rfl, data, rfl, hl⟩
  | next _ _ _ _ hn => exact .inl (nextStep_flags hn).1
  | ringSet => exact .inl rfl
  | advance => exact .inl rfl
  | clrcur => exact .inl rfl

theorem StepEffect.phase {s : State} {x : Input} {g g' : Instance} (h : StepEffect s x g g')
    (hx : s.pending.head? = some x) :
    g'.phase = g.phase ∨ (g'.phase = .unseeded ∧ x = .reset x.port)
      ∨ (g'.phase = .seeded ∧ ∃ cw ws, x = .command x.port cw ws ∧ cwOpc cw = 1#4
          ∧ s.desc.r ≤ (cwArg cw).toNat) := by
  cases h with
  | run hf he =>
    obtain hsame | ⟨hphase, data, rfl, hl⟩ := he.phase
    · exact .inl hsame
    obtain ⟨cw, ws, left, hcmd, hd⟩ | ⟨-, hunit⟩ := fetch_run hf hx
    · obtain ⟨ho, hlen⟩ := decodeHost_seed hd
      exact .inr (.inr ⟨hphase, cw, ws, hcmd, ho, hlen ▸ hl⟩)
    · cases hunit
  | refused => exact .inl rfl
  | illegal => exact .inl (Instance.latch_keeps _ g).2.2
  | reset hr => exact .inr (.inl ⟨rfl, hr⟩)

/-- Settles O53: an instance whose phase changes is the one the input is for, and the input is its `SEED` or its reset. -/
theorem phaseChangesOnlyBySeedAndReset : Obligations.PhaseChangesOnlyBySeedAndReset := by
  intro s t q g g' h hg hg' hne
  obtain ⟨-, rfl⟩ | ⟨x, k, k', hx, hk, he, -, -, hinsts⟩ := step_next h
  · cases hg.symm.trans hg'
    exact absurd rfl hne
  rw [hinsts] at hg'
  by_cases hq : x.port = q
  · subst hq
    obtain ⟨hlt, -⟩ := List.getElem?_eq_some_iff.mp hk
    rw [List.getElem?_set_self hlt] at hg'
    cases hg'
    cases hg.symm.trans hk
    rw [hx]
    obtain hsame | ⟨hphase, hr⟩ | ⟨hphase, cw, ws, hcmd, ho, hl⟩ := he.phase hx
    · exact absurd hsame hne
    · exact .inl ⟨hphase, congrArg some hr⟩
    · exact .inr ⟨hphase, cw, ws, congrArg some hcmd, ho, hl⟩
  · rw [List.getElem?_set_ne hq] at hg'
    cases hg.symm.trans hg'
    exact absurd rfl hne

/-! ### Reset (R30, R180) -/

/-- The values of R30; the ring's word is `resetWord` (log 3). -/
theorem Instance.reset_values :
    (∀ a, Ring.read Instance.reset.ring a = 0x00000000#32) ∧ Instance.reset.cursor = 0
      ∧ Instance.reset.phase = .unseeded ∧ Instance.reset.fault = false ∧ Instance.reset.cause = 0#4 :=
  ⟨fun a => Ring.read_nil a, rfl, rfl, rfl, rfl⟩

/-- The reset signal on an existing instance's port. -/
theorem step_reset {s : State} {p : Nat} {rest : List Input} (h : s.pending = .reset p :: rest)
    (hp : p < s.insts.length) : step s = .next ((s.accept p rest).putInst Instance.reset) := by
  have hg : (s.accept p rest).insts[(s.accept p rest).sel]? = some s.insts[p] := List.getElem?_eq_getElem hp
  calc step s = resetSignal (s.accept p rest) := by simp only [step, fetch, h]
    _ = .next ((s.accept p rest).putInst Instance.reset) := withPort_some hg _

/-- Settles O54: the new instance is the one of `Instance.reset`. -/
theorem resetSignalRestoresResetValues : Obligations.ResetSignalRestoresResetValues := by
  intro s p rest h hp
  obtain ⟨hring, hcursor, hphase, hfault, hcause⟩ := Instance.reset_values
  exact ⟨Instance.reset, hring, hcursor, hphase, hfault, hcause, step_reset h hp⟩

theorem State.reset_insts_length : State.reset.insts.length = Config.extraInstances + 1 :=
  List.length_replicate

theorem State.eq_reset_of_mem_reset_insts {g : Instance} (h : g ∈ State.reset.insts) : g = Instance.reset :=
  List.eq_of_mem_replicate h

/-- Settles O55: whatever the OPEN parameters are, every instance is `Instance.reset`. -/
theorem resetLeavesTheStatedValues : Obligations.ResetLeavesTheStatedValues := by
  refine ⟨?_, State.reset.desc.ok, fun g hg => ?_⟩
  · rw [State.reset_insts_length]; omega
  · rw [State.eq_reset_of_mem_reset_insts hg]
    exact Instance.reset_values

/-- Settles O56: a reset instance is good for every ring of at least one word. -/
theorem invariantHoldsAtReset : Obligations.InvariantHoldsAtReset where
  desc := State.reset.desc.ok
  sel := by
    rw [State.nInst, State.reset_insts_length]
    exact Nat.succ_pos _
  insts g hg := by
    rw [State.eq_reset_of_mem_reset_insts hg]
    exact .reset (Descriptor.wf_r State.reset.desc.ok)

end Sys2Proof.Machine
end

section
/-! The proofs about the instances as separate memories (20_memory.md R49, 60_exceptions.md R172): a step leaves every other
instance alone, and a command other than `EQ` reads nothing but the descriptor and its own instance, so that commands of
different instances commute. -/

namespace Sys2Proof.Machine

/-- Settles O59: a step writes the instance list only at the port of its input. -/
theorem otherInstancesAreUntouched : Obligations.OtherInstancesAreUntouched := by
  intro s t x q h hx hq
  obtain ⟨-, rfl⟩ | ⟨y, g, g', hy, -, -, -, -, hinsts⟩ := step_next h
  · rfl
  obtain rfl : y = x := Option.some.inj (hy.symm.trans hx)
  rw [hinsts, List.getElem?_set_ne hq.symm]

/-! ### A command's own encoding on its port -/

/-- The decoder undoes the encoder on the command port (30_encoding.md R61, R62, R70). -/
theorem decodeHost_encode {n : Nat} {i : Instr} (hc : i.isCommand = true) (hwf : i.wf n = true) :
    ∃ cw data, encode i = .host cw data ∧ decodeHost n cw data = .instr i [] := by
  cases i with
  | seed data =>
    have hlen : (BitVec.ofNat 28 data.length).toNat = data.length := by
      rw [BitVec.toNat_ofNat]
      exact Nat.mod_eq_of_lt (of_decide_eq_true hwf)
    exact ⟨_, data, rfl, by simp [decodeHost, decodeSeed, hlen]⟩
  | next => exact ⟨_, [], rfl, by simp [decodeHost, decodePlain]⟩
  | min => exact ⟨_, [], rfl, by simp [decodeHost, decodePlain]⟩
  | max => exact ⟨_, [], rfl, by simp [decodeHost, decodePlain]⟩
  | size => exact ⟨_, [], rfl, by simp [decodeHost, decodePlain]⟩
  | eq peer =>
    have hpeer : peer.toNat < n := of_decide_eq_true hwf
    exact ⟨_, [], rfl, by simp [decodeHost, decodeEq, hpeer]⟩
  | _ => cases hc

/-- A well-formed command at the head of the queue is the one that runs. -/
theorem step_encode_command {s : State} {p : Nat} {i : Instr} {rest : List Input}
    (h : s.pending = Input.ofEncoded p (encode i) :: rest) (hc : i.isCommand = true) (hwf : i.wf s.nInst = true) :
    step s = exec i (s.accept p rest) := by
  obtain ⟨cw, data, he, hd⟩ := decodeHost_encode hc hwf
  rw [he] at h
  rw [step_command h, hd]
  rfl

/-! ### What a command reads and writes -/

/-- `i` is local at an instance `g`: in every system with the descriptor `d`, whatever else it holds, it turns the selected
instance `g` into `g'` and answers `st` and `x`. -/
def LocalAt (d : CheckedDescriptor) (i : Instr) (g g' : Instance) (st : Status) (x : Option Word) : Prop :=
  ∀ s : State, s.desc = d → s.insts[s.sel]? = some g → exec i s = .next ((s.putInst g').respond st x)

/-- A command that only answers. -/
theorem LocalAt.of_answer {d : CheckedDescriptor} {i : Instr} {g : Instance} {st : Status} {x : Option Word}
    (h : ∀ s : State, s.desc = d → s.insts[s.sel]? = some g → exec i s = .next (s.respond st x)) :
    LocalAt d i g g st x := by
  intro s hd hg
  rw [h s hd hg, State.putInst_same hg]

theorem execSeed_local (d : CheckedDescriptor) (data : List Word) (g : Instance) :
    ∃ g' st x, LocalAt d (.seed data) g g' st x := by
  cases hf : g.fault with
  | true => exact ⟨g, _, _, .of_answer fun s _ hg => hostGate_faulted hg hf _⟩
  | false =>
    by_cases hl : d.r ≤ data.length
    · refine ⟨seedInstance d.toDescriptor data g, .ok, some 0, fun s hd hg => ?_⟩
      subst hd
      exact (hostGate_quiet hg hf _).trans (if_pos hl)
    · refine ⟨g.latch .seedShort, .raised .seedShort, none, fun s hd hg => ?_⟩
      subst hd
      exact (hostGate_quiet hg hf _).trans (if_neg hl)

theorem execNext_local (d : CheckedDescriptor) (g : Instance) : ∃ g' st x, LocalAt d .next g g' st x := by
  cases hf : g.fault with
  | true => exact ⟨g, _, _, .of_answer fun s _ hg => hostGate_faulted hg hf _⟩
  | false =>
    cases hp : g.phase with
    | unseeded =>
      refine ⟨g.latch .nextUnseeded, .raised .nextUnseeded, none, fun s _ hg => ?_⟩
      refine (hostGate_quiet hg hf _).trans ?_
      simp only [hp, raise]
    | seeded =>
      cases hn : nextStep d.toDescriptor g with
      | none =>
        refine ⟨g.latch .shiftRange, .raised .shiftRange, none, fun s hd hg => ?_⟩
        subst hd
        refine (hostGate_quiet hg hf _).trans ?_
        simp only [hp, hn, raise]
      | some p =>
        refine ⟨p.1, .ok, some p.2, fun s hd hg => ?_⟩
        subst hd
        refine (hostGate_quiet hg hf _).trans ?_
        simp only [hp, hn]

/-- A command other than `EQ` reads the descriptor and its own instance only, and always completes. -/
theorem command_local {i : Instr} (hc : i.isCommand = true) (hne : ∀ e, i ≠ .eq e) (d : CheckedDescriptor)
    (g : Instance) : ∃ g' st x, LocalAt d i g g' st x := by
  cases i with
  | seed data => exact execSeed_local d data g
  | next => exact execNext_local d g
  | min => exact ⟨g, _, _, .of_answer fun s _ hg => withPort_some hg _⟩
  | max => exact ⟨g, _, _, .of_answer fun s _ hg => withPort_some hg _⟩
  | size => exact ⟨g, .ok, some (sizeWord d.r), .of_answer fun s hd hg => by subst hd; exact withPort_some hg _⟩
  | eq peer => exact absurd rfl (hne peer)
  | _ => cases hc

/-! ### Two commands in a row -/

/-- On the port `p` the command `i` gives its instance the state `g'` and answers `st` and `x`, in every state that agrees
with `s` on the descriptor, the number of instances and instance `p`: whatever the other instances hold. -/
def Performs (s : State) (p : Nat) (i : Instr) (g' : Instance) (st : Status) (x : Option Word) : Prop :=
  ∀ (t : State) (rest : List Input),
    t.desc = s.desc → t.insts.length = s.insts.length → t.insts[p]? = s.insts[p]? →
      step { t with pending := Input.ofEncoded p (encode i) :: rest } =
        .next { t with sel := p, pending := rest, insts := t.insts.set p g'
                       replies := t.replies ++ [.response p st x] }

/-- Every well-formed command other than `EQ` on an existing instance's port. -/
theorem command_performs {s : State} {p : Nat} {i : Instr} (hp : p < s.insts.length) (hc : i.isCommand = true)
    (hwf : i.wf s.insts.length = true) (hne : ∀ e, i ≠ .eq e) : ∃ g' st x, Performs s p i g' st x := by
  obtain ⟨g', st, x, hi⟩ := command_local hc hne s.desc s.insts[p]
  refine ⟨g', st, x, fun t rest hdesc hlen hinst => ?_⟩
  have hwt : i.wf t.insts.length = true := by rwa [hlen]
  have hg : t.insts[p]? = some s.insts[p] := hinst.trans (List.getElem?_eq_getElem hp)
  calc step { t with pending := Input.ofEncoded p (encode i) :: rest }
      = exec i (t.accept p rest) := step_encode_command rfl hc hwt
    _ = .next (((t.accept p rest).putInst g').respond st x) := hi (t.accept p rest) hdesc hg

/-- Commands of two different instances, one after the other: each does what it would do alone. -/
theorem stepTwice_of_performs {s : State} {p q : Nat} {i j : Instr} {g' h' : Instance} {st st' : Status}
    {x x' : Option Word} (hpq : p ≠ q) (hi : Performs s p i g' st x) (hj : Performs s q j h' st' x')
    (rest : List Input) :
    stepTwice { s with pending := Input.ofEncoded p (encode i) :: Input.ofEncoded q (encode j) :: rest } =
      .next { s with sel := q, pending := rest, insts := (s.insts.set p g').set q h'
                     replies := s.replies ++ [.response p st x] ++ [.response q st' x'] } := by
  simp only [stepTwice, hi s _ rfl rfl rfl]
  exact hj { s with sel := p, insts := s.insts.set p g', replies := s.replies ++ [.response p st x] } rest rfl
    List.length_set (List.getElem?_set_ne hpq)

/-- Settles O60: each command acts on its own instance alone, so the two writes to the instance list commute. -/
theorem commandsOfDifferentInstancesCommute : Obligations.CommandsOfDifferentInstancesCommute := by
  intro s p q i j rest hpq hp hq hci hcj hwi hwj hi hj
  obtain ⟨g', st, x, hpi⟩ := command_performs hp hci hwi hi
  obtain ⟨h', st', x', hqj⟩ := command_performs hq hcj hwj hj
  exact ⟨_, _, .response p st x, .response q st' x',
    stepTwice_of_performs hpq hpi hqj rest, stepTwice_of_performs hpq.symm hqj hpi rest,
    List.set_comm _ _ hpq, rfl, rfl, List.append_assoc .., List.append_assoc ..⟩

end Sys2Proof.Machine
end

section
/-! The proofs about the encodings (30_encoding.md R60 to R70): decoder and encoder undo each other, and
exactly the words of R69 select no operation. -/

namespace Sys2Proof.Machine

/-- Settles O1: nineteen closed facts, evaluated. -/
theorem writtenOutWordsDecode : Obligations.WrittenOutWordsDecode := by
  unfold Obligations.WrittenOutWordsDecode
  decide

/-! ### Decoding an encoding -/

/-- `SEED` with its data words on the port (R70). -/
theorem decodeHost_of_seed {cw : Word} {ws : List Word} (n : Nat) (ho : cwOpc cw = 1#4)
    (hl : (cwArg cw).toNat ≤ ws.length) :
    decodeHost n cw ws = .instr (.seed (ws.take (cwArg cw).toNat)) (ws.drop (cwArg cw).toNat) := by
  simp [decodeHost, decodeSeed, ho, hl]

/-- What decodes to an instruction still does so in front of more words, which are left on the port (R70). -/
theorem decodeHost_append {n : Nat} {cw : Word} {ws left : List Word} {i : Instr}
    (h : decodeHost n cw ws = .instr i left) (rest : List Word) :
    decodeHost n cw (ws ++ rest) = .instr i (left ++ rest) := by
  obtain ⟨ho, hl, rfl, rfl⟩ | ⟨ha, rfl, plain⟩ | ⟨ho, hp, rfl, rfl⟩ := decodeHost_instr h
  · have hl' : (cwArg cw).toNat ≤ (ws ++ rest).length := by
      rw [List.length_append]
      omega
    rw [decodeHost_of_seed n ho hl', List.take_append_of_le_length hl, List.drop_append_of_le_length hl]
  · obtain ⟨ho, rfl⟩ | ⟨ho, rfl⟩ | ⟨ho, rfl⟩ | ⟨ho, rfl⟩ := plain <;> simp [decodeHost, decodePlain, ho, ha]
  · simp [decodeHost, decodeEq, ho, hp]

theorem fieldHolds_of_shiftLegal {k : Int} (h : ShiftLegal k) : FieldHolds k := ⟨by omega, by omega⟩

@[simp] theorem tagOfCode_tagCode (tag : Tag) : tagOfCode (tagCode tag) = tag := by cases tag <;> rfl

/-- The decoders of the four formats undo the encoder (R61, R65 to R67). -/
theorem decode_encode {n : Nat} {i : Instr} (hwf : i.wf n = true) : decode n (encode i) = .instr i [] := by
  cases hc : i.isCommand with
  | true =>
    obtain ⟨cw, data, he, hd⟩ := decodeHost_encode hc hwf
    rw [he]
    exact hd
  | false =>
    cases i with
    | ringAt off => rfl
    | ringSet off v => rfl
    | advance => rfl
    | clrcur => rfl
    | mix v k =>
      have hk : ShiftLegal k := of_decide_eq_true hwf
      simp [decode, encode, decodeMix, shiftOfField_fieldOfShift (fieldHolds_of_shiftLegal hk)]
    | temperNone z kt =>
      have hk : FieldHolds kt := of_decide_eq_true hwf
      simp [decode, encode, decodeTemper, shiftOfField_fieldOfShift hk]
    | temperA z kt =>
      have hk : FieldHolds kt := of_decide_eq_true hwf
      simp [decode, encode, decodeTemper, shiftOfField_fieldOfShift hk]
    | temperB z kt =>
      have hk : ShiftLegal kt := of_decide_eq_true hwf
      simp [decode, encode, decodeTemper, shiftOfField_fieldOfShift (fieldHolds_of_shiftLegal hk)]
    | temperC z kt =>
      have hk : ShiftLegal kt := of_decide_eq_true hwf
      simp [decode, encode, decodeTemper, shiftOfField_fieldOfShift (fieldHolds_of_shiftLegal hk)]
    | _ => cases hc

/-- Settles O2: the decoders undo the encoder, and a command port's decoder leaves the words that follow. -/
theorem decodeEncodeRoundTrip : Obligations.DecodeEncodeRoundTrip := by
  intro n i hwf
  refine ⟨decode_encode hwf, fun cw data rest he => ?_⟩
  have hd : decodeHost n cw data = .instr i [] := by
    have h := decode_encode hwf
    rwa [he] at h
  exact decodeHost_append hd rest

/-! ### Encoding what was decoded -/

/-- A word is made of the fields it holds (R60). -/
theorem cwMake_of_fields {cw : Word} {o : BitVec 4} {a : BitVec 28} (ho : cwOpc cw = o) (ha : cwArg cw = a) :
    cwMake o a = cw := by
  rw [← ho, ← ha, cwMake_parts]

/-- Settles O3: each way a word decodes fixes its two fields, and those are the ones the encoder writes. -/
theorem decodeReadsOnlyEncodings : Obligations.DecodeReadsOnlyEncodings := by
  intro n cw ws i left h
  obtain ⟨ho, hl, rfl, rfl⟩ | ⟨ha, rfl, plain⟩ | ⟨ho, hp, rfl, rfl⟩ := decodeHost_instr h
  · have hlen : (ws.take (cwArg cw).toNat).length = (cwArg cw).toNat := List.length_take_of_le hl
    have harg : cwArg cw = BitVec.ofNat 28 (ws.take (cwArg cw).toNat).length := by simp [hlen]
    refine ⟨decide_eq_true ?_, ws.take (cwArg cw).toNat, ?_, (List.take_append_drop _ _).symm⟩
    · rw [hlen]
      exact (cwArg cw).isLt
    · rw [encode, cwMake_of_fields ho harg]
  · obtain ⟨ho, rfl⟩ | ⟨ho, rfl⟩ | ⟨ho, rfl⟩ | ⟨ho, rfl⟩ := plain <;>
      exact ⟨rfl, [], by rw [encode, cwMake_of_fields ho ha], rfl⟩
  · exact ⟨decide_eq_true hp, [], by rw [encode, cwMake_of_fields ho rfl], rfl⟩

/-! ### The words that select no operation (R69) -/

theorem decodePlain_illegal_iff (i : Instr) (o : BitVec 4) (a : BitVec 28) (ws : List Word) :
    (∃ why left, decodePlain i o a ws = .illegal why left) ↔ a ≠ 0#28 := by
  unfold decodePlain
  split <;> simp [*]

theorem decodeEq_illegal_iff (n : Nat) (peer : BitVec 28) (ws : List Word) :
    (∃ why left, decodeEq n peer ws = .illegal why left) ↔ n ≤ peer.toNat := by
  unfold decodeEq
  split <;> simp [*]

theorem decodeSeed_ne_illegal (len : Nat) (ws : List Word) (why : Illegal) (left : List Word) :
    decodeSeed len ws ≠ .illegal why left := by
  unfold decodeSeed
  split <;> simp

/-- Settles O4: opcode by opcode, the verdict is the one of that opcode's decoder. -/
theorem illegalWordsAreExactlyThese : Obligations.IllegalWordsAreExactlyThese := by
  intro n cw ws
  obtain ⟨ho, hd⟩ | ⟨ho, hd⟩ | ⟨ho, hd⟩ | ⟨ho, hd⟩ | ⟨ho, hd⟩ | ⟨ho, hd⟩ | ⟨ho, hd⟩ := decodeHost_cases n cw ws <;>
    rw [hd]
  · simp [ho, decodeSeed_ne_illegal]
  iterate 4 simp [ho, decodePlain_illegal_iff] -- `NEXT`, `MIN`, `MAX`, `SIZE`
  · simp [ho, decodeEq_illegal_iff]
  · exact iff_of_true ⟨_, _, rfl⟩ (.inl ho)

end Sys2Proof.Machine
end

section
/-! The proofs about a command port (30_encoding.md R63, R70): an encoded instruction is the one that runs, a `SEED` takes its
data words from the port whatever its outcome, and every command gets one response. -/

namespace Sys2Proof.Machine

/-- A port's words that read as one instruction and nothing more: that instruction runs on the port's instance, and the queue
behind it is left. -/
theorem step_push_of_decode {s : State} {e : Encoded} {i : Instr} (p : Nat) (h : decode s.nInst e = .instr i []) :
    step (s.push (Input.ofEncoded p e)) = exec i { s with sel := p } := by
  cases e with
  | host cw data =>
    have hd : decodeHost (s.push (.command p cw data)).nInst cw data = .instr i [] := h
    refine (step_command (s := s.push (.command p cw data)) rfl).trans ?_
    rw [hd]
    rfl
  | ring rop off wdata => cases h; rfl
  | mix kf v => cases h; rfl
  | temper tf ktf z => cases h; rfl

/-- Settles O49: the instruction's encoding decodes to it. -/
theorem encodedInstructionRuns : Obligations.EncodedInstructionRuns := fun _ p _ hwf =>
  step_push_of_decode p (decode_encode hwf)

/-- Settles O5: no instruction's outcome touches the queue, which the fetch has already cut by `LEN` words. -/
theorem seedWordsAreConsumedWhateverTheOutcome : Obligations.SeedWordsAreConsumedWhateverTheOutcome := by
  intro s t p cw ws rest hp ho h
  rw [step_command hp] at h
  by_cases hl : (cwArg cw).toNat ≤ ws.length
  · rw [decodeHost_of_seed _ ho hl] at h
    obtain ⟨g, g', rep, -, -, rfl⟩ := exec_shaped h
    exact ⟨hl, rfl⟩
  · have hd : decodeHost s.nInst cw ws = .truncated ((cwArg cw).toNat - ws.length) := by
      simp [decodeHost, decodeSeed, ho, hl]
    rw [hd] at h
    cases h

/-! ### One response per command (R63) -/

/-- From `s` to `t` the selected instance's port got one response, with data exactly when its status is `OK`. -/
def Responded (s t : State) : Prop :=
  ∃ st x, t.replies = s.replies ++ [.response s.sel st x] ∧ (x.isSome = true ↔ st = .ok)

theorem Responded.ok {s t u : State} {y : Word} (h : (.next (u.respond .ok (some y)) : Result) = .next t)
    (hr : u.replies = s.replies) (hs : u.sel = s.sel) : Responded s t := by
  obtain rfl := Host.Outcome.next.inj h
  exact ⟨.ok, some y, by simp [hr, hs], by simp⟩

theorem Responded.raised {s t : State} {c : Cause} {g : Instance} (h : raise c g s = .next t) : Responded s t := by
  obtain rfl := raise_next h
  exact ⟨.raised c, none, by simp, by simp⟩

/-- A gated command responds: with `FAULTED`, or as its body does on a quiet instance. -/
theorem Responded.gated {s t : State} {f : Instance → Result} (h : hostGate s f = .next t)
    (hf : ∀ g, f g = .next t → Responded s t) : Responded s t := by
  obtain ⟨g, -, ⟨-, rfl⟩ | ⟨-, hg⟩⟩ := hostGate_next h
  · exact ⟨.faulted, none, by simp, by simp⟩
  · exact hf g hg

theorem execSeed_responded {s t : State} {data : List Word} (h : execSeed data s = .next t) : Responded s t := by
  refine .gated h fun g hg => ?_
  split at hg
  · exact .ok hg rfl rfl
  · exact .raised hg

theorem execNext_responded {s t : State} (h : execNext s = .next t) : Responded s t := by
  refine .gated h fun g hg => ?_
  split at hg
  · exact .raised hg
  · split at hg
    · exact .raised hg
    · exact .ok hg rfl rfl

theorem execEq_responded {s t : State} {peer : BitVec 28} (h : execEq peer s = .next t) : Responded s t := by
  refine .gated h fun g hg => ?_
  split at hg
  · exact .raised hg
  · exact .ok hg rfl rfl

/-- Every instruction of format H responds. -/
theorem exec_responded {i : Instr} {s t : State} (hc : i.isCommand = true) (h : exec i s = .next t) :
    Responded s t := by
  cases i with
  | seed data => exact execSeed_responded h
  | next => exact execNext_responded h
  | min => obtain ⟨g, -, h⟩ := withPort_next h; exact .ok h rfl rfl
  | max => obtain ⟨g, -, h⟩ := withPort_next h; exact .ok h rfl rfl
  | size => obtain ⟨g, -, h⟩ := withPort_next h; exact .ok h rfl rfl
  | eq peer => exact execEq_responded h
  | _ => cases hc

/-- Settles O52: the words on a command port read as a command, which responds, or as an illegal word, which does too. -/
theorem oneResponsePerCommand : Obligations.OneResponsePerCommand := by
  intro s t p cw ws rest hp h
  rw [step_command hp] at h
  cases hd : decodeHost s.nInst cw ws with
  | instr i left =>
    rw [hd] at h
    exact exec_responded (decodeHost_isCommand hd) h
  | illegal why left =>
    rw [hd] at h
    exact Responded.gated h fun g hg => .raised hg
  | truncated n =>
    rw [hd] at h
    cases h

end Sys2Proof.Machine
end

section
/-! The proofs about shift_xor_recurrence_unit (40_bitops.md R80 to R86): what `MIX` computes and that it is a linear bijection,
when it takes fault entry, and why no host traffic reaches that fault. -/

namespace Sys2Proof.Machine

/-! ### The unit's two answers (R80 to R82) -/

theorem answerUnit_some {s : State} {g : Instance} (h : s.insts[s.sel]? = some g) (y : Word) :
    answerUnit s (some y) = .next (s.unitReply (some y)) := withPort_some h _

theorem answerUnit_none {s : State} {g : Instance} (h : s.insts[s.sel]? = some g) (hf : g.fault = false) :
    answerUnit s none =
      .next ((s.putInst { g with fault := true, cause := 3#4 }).respond (.raised .shiftRange) none) := by
  calc answerUnit s none = raise .shiftRange g s := withPort_some h _
    _ = .next ((s.putInst { g with fault := true, cause := 3#4 }).respond (.raised .shiftRange) none) := by
      rw [raise, Instance.latch_of_quiet _ g hf]
      rfl

/-- Settles O10: for a legal amount `MIX` has the value of R80, and the unit returns it. -/
theorem mixReturnsShiftXor : Obligations.MixReturnsShiftXor := by
  intro s g v k hg hlo hhi
  calc exec (.mix v k) s = answerUnit s (mix v k) := rfl
    _ = answerUnit s (some (mixValue v k)) := by rw [mix_legal ⟨hlo, hhi⟩]
    _ = .next (s.unitReply (some (mixValue v k))) := answerUnit_some hg _

/-- Settles O11: `MIX` has no value there, and the three operations hand that same lack of a value to the unit's answer. -/
theorem shiftOutOfRangeTakesFaultEntry : Obligations.ShiftOutOfRangeTakesFaultEntry := by
  intro s g v k hg hf hk t
  have hmix : mix v k = none := mix_illegal (by omega)
  have hunit : answerUnit s (mix v k) = .next t := by
    rw [hmix]
    exact answerUnit_none hg hf
  exact ⟨hunit, hunit, hunit⟩

/-! ### `MIX` as a map on words (R86) -/

@[simp] theorem mixValue_zero_amount (v : Word) : mixValue v 0 = v := if_pos rfl

/-- A positive amount: R9's `v * 2^s mod 2^32` is the left shift. -/
theorem mixValue_left (v : Word) (n : Nat) : mixValue v (n + 1 : Nat) = v ^^^ v <<< (n + 1) := by
  rw [mixValue, if_neg (by omega), if_pos (by omega), Int.toNat_natCast]
  congr 1
  apply BitVec.eq_of_toNat_eq
  simp [Nat.shiftLeft_eq]

/-- A negative amount: R9's `v / 2^s` is the right shift. -/
theorem mixValue_right (v : Word) (n : Nat) : mixValue v (Int.negSucc n) = v ^^^ v >>> (n + 1) := by
  have hlt : v.toNat / 2 ^ (n + 1) < 2 ^ 32 := lt_of_le_of_lt (Nat.div_le_self _ _) v.isLt
  rw [mixValue, if_neg (by omega), if_neg (by omega), Int.neg_negSucc, Int.toNat_natCast]
  congr 1
  apply BitVec.eq_of_toNat_eq
  rw [BitVec.toNat_ofNat, Nat.mod_eq_of_lt hlt, BitVec.toNat_ushiftRight, Nat.shiftRight_eq_div_pow]

@[simp] theorem mixValue_zero_word (k : Int) : mixValue 0 k = 0 := by
  match k with
  | 0 => rfl
  | (n + 1 : Nat) =>
    rw [mixValue_left]
    simp
  | .negSucc n =>
    rw [mixValue_right]
    simp

/-- Both shifts distribute over XOR (R86). -/
theorem mixValue_xor (a b : Word) (k : Int) : mixValue (a ^^^ b) k = mixValue a k ^^^ mixValue b k := by
  match k with
  | 0 => simp
  | (n + 1 : Nat) =>
    simp only [mixValue_left, BitVec.shiftLeft_xor_distrib]
    ac_rfl
  | .negSucc n =>
    simp only [mixValue_right, BitVec.ushiftRight_xor_distrib]
    ac_rfl

/-- Settles O12: `MIX` has the value of R80, and that value is linear in the word. -/
theorem mixIsLinear : Obligations.MixIsLinear := by
  intro k hlo hhi
  have legal : ∀ v, mix v k = some (mixValue v k) := fun _ => mix_legal ⟨hlo, hhi⟩
  refine ⟨by rw [legal, mixValue_zero_word], fun a b => ⟨mixValue a k, mixValue b k, legal a, legal b, ?_⟩⟩
  rw [legal, mixValue_xor]

/-- Shifting on by the same amount again and again pushes every bit out. -/
theorem eq_zero_of_eq_shiftLeft {v : Word} {n : Nat} (h : v = v <<< (n + 1)) : v = 0 := by
  have again : ∀ j, v = v <<< ((n + 1) * j) := by
    intro j
    induction j with
    | zero => simp
    | succ j ih => rwa [Nat.mul_succ, BitVec.shiftLeft_add, ← ih]
  rw [again 32]
  exact BitVec.shiftLeft_eq_zero (by omega)

/-- A right shift makes every word but zero smaller. -/
theorem eq_zero_of_eq_shiftRight {v : Word} {n : Nat} (h : v = v >>> (n + 1)) : v = 0 := by
  have hdiv : v.toNat = v.toNat / 2 ^ (n + 1) := by
    rw [← Nat.shiftRight_eq_div_pow, ← BitVec.toNat_ushiftRight, ← h]
  by_contra hne
  have hpos : 0 < v.toNat := Nat.pos_of_ne_zero fun h0 => hne (BitVec.eq_of_toNat_eq h0)
  have hlt := Nat.div_lt_self hpos (Nat.one_lt_two_pow (Nat.add_one_ne_zero n))
  omega

/-- The kernel of `MIX` is trivial: a word in it equals its own shift. -/
theorem eq_zero_of_mixValue_eq_zero {v : Word} {k : Int} (h : mixValue v k = 0) : v = 0 := by
  match k with
  | 0 => rwa [mixValue_zero_amount] at h
  | (n + 1 : Nat) =>
    rw [mixValue_left] at h
    exact eq_zero_of_eq_shiftLeft (BitVec.xor_eq_zero_iff.mp h)
  | .negSucc n =>
    rw [mixValue_right] at h
    exact eq_zero_of_eq_shiftRight (BitVec.xor_eq_zero_iff.mp h)

theorem mixValue_injective (k : Int) : Function.Injective fun v => mixValue v k := by
  intro a b h
  have hker : mixValue (a ^^^ b) k = 0 := (mixValue_xor a b k).trans (BitVec.xor_eq_zero_iff.mpr h)
  exact BitVec.xor_eq_zero_iff.mp (eq_zero_of_mixValue_eq_zero hker)

theorem mixValue_bijective (k : Int) : Function.Bijective fun v => mixValue v k :=
  Finite.injective_iff_bijective.mp (mixValue_injective k)

/-- Settles O13: an injective map of the finitely many words to themselves is a bijection. -/
theorem mixIsBijective : Obligations.MixIsBijective := by
  intro k hlo hhi y
  have legal : ∀ v, mix v k = some (mixValue v k) := fun _ => mix_legal ⟨hlo, hhi⟩
  obtain ⟨v, hv, huniq⟩ := (mixValue_bijective k).existsUnique y
  refine ⟨v, (legal v).trans (congrArg some hv), fun v' hv' => huniq v' ?_⟩
  exact Option.some.inj ((legal v').symm.trans hv')

/-! ### A checked descriptor never raises (R82, 44_variant_table.md R136) -/

theorem Descriptor.wf_K {d : Descriptor} (h : d.wf = true) : ∀ k ∈ d.K, ShiftLegal k := by
  simp only [Descriptor.wf, Bool.and_eq_true, List.all_eq_true, decide_eq_true_eq] at h
  obtain ⟨⟨-, hK⟩, -⟩ := h
  exact hK

theorem Descriptor.wf_kt {d : Descriptor} (h : d.wf = true) : ShiftLegal d.kt := by
  simp only [Descriptor.wf, Bool.and_eq_true, decide_eq_true_eq] at h
  obtain ⟨-, hkt⟩ := h
  exact hkt

theorem foldTaps_some {l : List (Word × Int)} (h : ∀ p ∈ l, ShiftLegal p.2) (acc : Word) :
    ∃ z, foldTaps acc l = some z := by
  induction l generalizing acc with
  | nil => exact ⟨acc, rfl⟩
  | cons p rest ih =>
    obtain ⟨hp, hrest⟩ := List.forall_mem_cons.mp h
    obtain ⟨z, hz⟩ := ih hrest (mixValue (acc ^^^ p.1) p.2)
    exact ⟨z, by simp only [foldTaps, mix_legal hp, Option.bind_some, hz]⟩

theorem combine_some {l : List (Word × Int)} (h : ∀ p ∈ l, ShiftLegal p.2) : ∃ z, combine l = some z := by
  cases l with
  | nil => exact ⟨0, rfl⟩
  | cons p rest =>
    obtain ⟨hp, hrest⟩ := List.forall_mem_cons.mp h
    obtain ⟨z, hz⟩ := foldTaps_some hrest (mixValue p.1 p.2)
    exact ⟨z, by simp only [combine, mix_legal hp, Option.bind_some, hz]⟩

/-- Every amount the fold uses is one of the descriptor's constants (42_engine.md R103). -/
theorem recur_some {d : Descriptor} (h : d.wf = true) (g : Instance) : ∃ z, recur d g = some z :=
  combine_some fun _ hp => Descriptor.wf_K h _ (List.mem_of_mem_take (List.of_mem_zip hp).2)

theorem temper_some {d : Descriptor} (h : d.wf = true) (z : Word) : ∃ y, temper d z = some y :=
  ⟨_, temper_legal (Descriptor.wf_kt h) z⟩

/-- Settles O27: neither the recurrence nor the tempering raises. -/
theorem checkedDescriptorNeverRaisesInNext : Obligations.CheckedDescriptorNeverRaisesInNext := by
  intro d g h
  obtain ⟨z, hz⟩ := recur_some h g
  obtain ⟨y, hy⟩ := temper_some h z
  simp [nextStep, hz, hy]

/-! ### The shift-range cause under host traffic (R82, 60_exceptions.md R153) -/

/-- No instance holds the cause `PV_SHIFT_RANGE`. -/
def State.NoShiftRange (s : State) : Prop := ∀ g ∈ s.insts, g.cause ≠ 3#4

theorem State.NoShiftRange.putInst {s : State} (hs : s.NoShiftRange) {g : Instance} (hg : g.cause ≠ 3#4) :
    (s.putInst g).NoShiftRange := by
  intro k hk
  obtain hk | rfl := List.mem_or_eq_of_mem_set hk
  · exact hs k hk
  · exact hg

theorem Cause.code_ne_three {c : Cause} (h : c ≠ .shiftRange) : c.code ≠ 3#4 := by
  cases c with
  | shiftRange => exact absurd rfl h
  | nextUnseeded => decide
  | seedShort => decide
  | illegalCommand => decide

theorem Instance.latch_cause_ne_three {c : Cause} (h : c ≠ .shiftRange) {g : Instance} (hg : g.cause ≠ 3#4) :
    (g.latch c).cause ≠ 3#4 := by
  cases hf : g.fault with
  | false =>
    rw [Instance.latch_of_quiet c g hf]
    exact Cause.code_ne_three h
  | true =>
    rw [Instance.latch_of_faulted c g hf]
    exact hg

/-- Fault entry with any other cause. -/
theorem State.NoShiftRange.raised {s t : State} (hs : s.NoShiftRange) {c : Cause} {g : Instance}
    (hg : g.cause ≠ 3#4) (h : raise c g s = .next t) (hc : c ≠ .shiftRange) : t.NoShiftRange := by
  obtain rfl := raise_next h
  exact hs.putInst (Instance.latch_cause_ne_three hc hg)

/-- A gated command: it is refused and changes no instance, or its body runs. -/
theorem State.NoShiftRange.gated {s t : State} (hs : s.NoShiftRange) {f : Instance → Result}
    (h : hostGate s f = .next t) (hf : ∀ g, g.cause ≠ 3#4 → f g = .next t → t.NoShiftRange) : t.NoShiftRange := by
  obtain ⟨g, hg, ⟨-, rfl⟩ | ⟨-, h⟩⟩ := hostGate_next h
  · exact hs
  · exact hf g (hs g (List.mem_of_getElem? hg)) h

/-- A command that only answers. -/
theorem State.NoShiftRange.answered {s t : State} (hs : s.NoShiftRange) {st : Status} {x : Option Word}
    (h : withPort s (fun _ => .next (s.respond st x)) = .next t) : t.NoShiftRange := by
  obtain ⟨-, -, h⟩ := withPort_next h
  obtain rfl := Host.Outcome.next.inj h
  exact hs

theorem execSeed_noShiftRange {s t : State} (hs : s.NoShiftRange) {data : List Word}
    (h : execSeed data s = .next t) : t.NoShiftRange := by
  refine hs.gated h fun g hg h => ?_
  split at h
  · obtain rfl := Host.Outcome.next.inj h
    exact hs.putInst (by simpa [seedInstance] using hg)
  · exact hs.raised hg h nofun

/-- `NEXT` cannot raise `PV_SHIFT_RANGE`, since the system's descriptor is a checked one. -/
theorem execNext_noShiftRange {s t : State} (hs : s.NoShiftRange) (h : execNext s = .next t) : t.NoShiftRange := by
  refine hs.gated h fun g hg h => ?_
  split at h
  · exact hs.raised hg h nofun
  · obtain ⟨g', y, hn⟩ := checkedDescriptorNeverRaisesInNext s.desc.toDescriptor g s.desc.ok
    obtain ⟨-, -, hcause⟩ := nextStep_flags hn
    rw [hn] at h
    obtain rfl := Host.Outcome.next.inj h
    exact hs.putInst (hcause ▸ hg)

theorem execEq_noShiftRange {s t : State} (hs : s.NoShiftRange) {peer : BitVec 28}
    (h : execEq peer s = .next t) : t.NoShiftRange := by
  refine hs.gated h fun g hg h => ?_
  split at h
  · exact hs.raised hg h nofun
  · obtain rfl := Host.Outcome.next.inj h
    exact hs

/-- No instruction of format H brings in the cause. -/
theorem exec_noShiftRange {i : Instr} {s t : State} (hs : s.NoShiftRange) (hc : i.isCommand = true)
    (h : exec i s = .next t) : t.NoShiftRange := by
  cases i with
  | seed data => exact execSeed_noShiftRange hs h
  | next => exact execNext_noShiftRange hs h
  | min => exact hs.answered h
  | max => exact hs.answered h
  | size => exact hs.answered h
  | eq peer => exact execEq_noShiftRange hs h
  | _ => cases hc

/-- Settles O47: a host's input runs a command, enters the fault of an illegal word, or resets. -/
theorem shiftRangeIsUnreachableFromTheHost : Obligations.ShiftRangeIsUnreachableFromTheHost := by
  intro s t hhost hs h
  change t.NoShiftRange
  obtain ⟨-, rfl⟩ | ⟨x, rest, q, hp, hstep⟩ := step_cases h
  · exact hs
  have hx : s.pending.head? = some x := by rw [hp]; rfl
  have hs' : (s.accept x.port q).NoShiftRange := hs
  obtain ⟨i, hf, h⟩ | ⟨w, -, h⟩ | ⟨-, h⟩ := hstep
  · obtain ⟨cw, ws, left, -, hd⟩ | ⟨hunit, -⟩ := fetch_run hf hx
    · exact exec_noShiftRange hs' (decodeHost_isCommand hd) h
    · rw [hhost x hx] at hunit
      cases hunit
  · exact hs'.gated h fun g hg h => hs'.raised hg h nofun
  · obtain ⟨g, -, rfl⟩ := resetSignal_next h
    exact hs'.putInst (by decide)

end Sys2Proof.Machine
end

section
/-! The proofs about StateRing_circular_buffer (41_statering.md R91 to R94): which word an offset reaches, what each of the four
micro-operations answers and leaves unchanged, and the laws between them. -/

namespace Sys2Proof.Machine

/-! ### The relative address (20_memory.md R41, R43) -/

theorem phys_cast {r : Nat} (hr : 0 < r) (c : Nat) (off : Int) : (phys r c off : Int) = ((c : Int) + off) % (r : Int) :=
  Int.toNat_of_nonneg (Int.emod_nonneg _ (by omega))

theorem phys_eq_iff {r : Nat} (hr : 0 < r) (c : Nat) (i j : Int) : phys r c i = phys r c j ↔ (r : Int) ∣ i - j := by
  have hsub : ((c : Int) + i) - (c + j) = i - j := add_sub_add_left_eq_sub i j c
  calc phys r c i = phys r c j
      ↔ ((c : Int) + i) % r = (c + j) % r := by rw [← Int.natCast_inj, phys_cast hr, phys_cast hr]
    _ ↔ (r : Int) ∣ (c + i) - (c + j) := by rw [Int.emod_eq_emod_iff_emod_sub_eq_zero, Int.dvd_iff_emod_eq_zero]
    _ ↔ (r : Int) ∣ i - j := by rw [hsub]

/-- Settles O18: the address is a remainder modulo `r`, and equal remainders are a difference that `r` divides. -/
theorem offsetsWrapModuloR : Obligations.OffsetsWrapModuloR := fun _ c i j hr => ⟨phys_lt hr c i, phys_eq_iff hr c i j⟩

/-! ### `AT` and `SET` (R91, R92) -/

/-- Settles O14: the word at `phys` is what the port returns, and the reply is the one change. -/
theorem atReturnsAddressedWord : Obligations.AtReturnsAddressedWord := by
  intro s g off hg
  calc exec (.ringAt off) s = execAt off s := rfl
    _ = .next (s.unitReply (some (g.readAt s.desc.r off))) := withPort_some hg _

/-- Settles O15: the new ring is the old one with one word stored, at an address that the wrap keeps inside the ring. -/
theorem setWritesExactlyOneWord : Obligations.SetWritesExactlyOneWord := by
  intro s g off v hg hwf
  have hr : 0 < s.desc.r := Descriptor.wf_r s.desc.ok
  refine ⟨g.ring.write (phys s.desc.r g.cursor off) v, Ring.wf_write v (phys_lt hr g.cursor off) hwf,
    fun a => Ring.read_write hwf _ a v, ?_⟩
  calc exec (.ringSet off v) s = execSet off v s := rfl
    _ = .next ((s.putInst (g.writeAt s.desc.r off v)).unitReply none) := withPort_some hg _

/-- An `AT` after a `SET`, by the offsets alone: the cursor drops out. -/
theorem Instance.readAt_writeAt {r : Nat} (hr : 0 < r) {g : Instance} (h : Ring.wf r g.ring = true) (i j : Int)
    (v : Word) : (g.writeAt r i v).readAt r j = if (r : Int) ∣ i - j then v else g.readAt r j := by
  calc (g.writeAt r i v).readAt r j
      = if phys r g.cursor j = phys r g.cursor i then v else g.readAt r j := Ring.read_write h _ _ v
    _ = if (r : Int) ∣ i - j then v else g.readAt r j :=
      if_congr (eq_comm.trans (phys_eq_iff hr g.cursor i j)) rfl rfl

/-- Settles O19: the two cases of a read after a write. -/
theorem setThenAt : Obligations.SetThenAt := by
  intro r g i j v hr hwf
  rw [Instance.readAt_writeAt hr hwf]
  exact ⟨fun h => if_pos h, fun h => if_neg h⟩

/-! ### `ADVANCE` (R93) -/

theorem Instance.readAt_advance (r : Nat) (g : Instance) (i : Int) : (g.advance r).readAt r (i - 1) = g.readAt r i :=
  congrArg g.ring.read (phys_advance g.cursor i)

theorem advanceTimes_eq {r : Nat} (k : Nat) {g : Instance} (hc : g.cursor < r) :
    advanceTimes r k g = { g with cursor := (g.cursor + k) % r } := by
  induction k generalizing g with
  | zero => rw [Nat.add_zero, Nat.mod_eq_of_lt hc, advanceTimes]
  | succ k ih =>
    have hadd : ((g.cursor + 1) % r + k) % r = (g.cursor + (k + 1)) % r := by
      rw [Nat.mod_add_mod, Nat.add_assoc, Nat.add_comm 1 k]
    calc advanceTimes r (k + 1) g = advanceTimes r k (g.advance r) := rfl
      _ = { g with cursor := ((g.cursor + 1) % r + k) % r } := ih (Nat.mod_lt _ (by omega))
      _ = { g with cursor := (g.cursor + (k + 1)) % r } := by rw [hadd]

/-- `r` advances go once round the ring. -/
theorem advanceTimes_self {r : Nat} {g : Instance} (hc : g.cursor < r) : advanceTimes r r g = g := by
  rw [advanceTimes_eq r hc, Nat.add_mod_right, Nat.mod_eq_of_lt hc]

/-- Settles O16: the instruction is one advance of the cursor, which shifts every offset by one and closes after `r`. -/
theorem advanceMovesTheCursorByOne : Obligations.AdvanceMovesTheCursorByOne := by
  intro s g hg
  refine ⟨?_, g.readAt_advance s.desc.r, advanceTimes_self⟩
  calc exec .advance s = execAdvance s := rfl
    _ = .next ((s.putInst (g.advance s.desc.r)).unitReply none) := withPort_some hg _

/-! ### `CLRCUR` (R94) -/

theorem Instance.readAt_clrcur (r : Nat) (g : Instance) (i : Int) :
    g.clrcur.readAt r i = g.ring.read (i % (r : Int)).toNat := by
  rw [Instance.readAt, Instance.clrcur_ring, Instance.clrcur_cursor, phys, Nat.cast_zero, zero_add]

/-- Settles O17: the cursor becomes 0, and from there an offset inside the ring is its own address. -/
theorem clrcurClearsTheCursor : Obligations.ClrcurClearsTheCursor := by
  intro s g hg
  refine ⟨?_, rfl, g.readAt_clrcur s.desc.r, fun i hi => congrArg g.ring.read (phys_zero hi)⟩
  calc exec .clrcur s = execClrcur s := rfl
    _ = .next ((s.putInst g.clrcur).unitReply none) := withPort_some hg _

end Sys2Proof.Machine
end

section
/-! The proofs about the commands that only answer (42_engine.md R104 to R107, R111): `MIN`, `MAX`, `SIZE` in every state, and
`EQ` as equality of ring and cursor. -/

namespace Sys2Proof.Machine

/-! ### `MIN`, `MAX`, `SIZE` (R104 to R106) -/

/-- Settles O34: `MIN` reads nothing of its instance, and its word has `ARG = 0`. -/
theorem minAnswersInEveryState : Obligations.MinAnswersInEveryState := by
  intro s g hg
  refine ⟨?_, fun _ _ => rfl⟩
  calc exec .min s = execMin s := rfl
    _ = .next (s.respond .ok (some 0x00000000)) := withPort_some hg _

/-- Settles O35: `MAX` reads nothing of its instance, and its word has `ARG = 0`. -/
theorem maxAnswersInEveryState : Obligations.MaxAnswersInEveryState := by
  intro s g hg
  refine ⟨?_, fun _ _ => rfl⟩
  calc exec .max s = execMax s := rfl
    _ = .next (s.respond .ok (some 0xFFFFFFFF)) := withPort_some hg _

/-- Settles O36: `SIZE` reads the descriptor alone, and an `r` that fits a word is that word's value. -/
theorem sizeAnswersInEveryState : Obligations.SizeAnswersInEveryState := by
  intro s g hg
  refine ⟨⟨sizeWord s.desc.r, sizeWord_toNat, ?_⟩, fun _ _ => rfl⟩
  calc exec .size s = execSize s := rfl
    _ = .next (s.respond .ok (some (sizeWord s.desc.r))) := withPort_some hg _

/-! ### `EQ` (R107, R111, 10_state.md R32) -/

theorem sameValue_iff (r : Nat) (g h : Instance) :
    sameValue r g h = true ↔ (∀ j, j < r → g.ring.read j = h.ring.read j) ∧ g.cursor = h.cursor := by
  simp [sameValue]

/-- `EQ` with an existing peer, on an unfaulted instance. -/
theorem exec_eq_peer {s : State} {g h : Instance} {peer : BitVec 28} (hg : s.insts[s.sel]? = some g)
    (hf : g.fault = false) (hh : s.insts[peer.toNat]? = some h) :
    exec (.eq peer) s = .next (s.respond .ok (some (if sameValue s.desc.r g h then 1 else 0))) := by
  refine (hostGate_quiet hg hf _).trans ?_
  simp only [hh]

/-- Settles O37: the answer is the bit of `sameValue`. -/
theorem eqComparesRingAndCursor : Obligations.EqComparesRingAndCursor := by
  intro s g h peer hg hf hh
  refine ⟨if sameValue s.desc.r g h then 1 else 0, ?_, ?_, exec_eq_peer hg hf hh⟩
  · exact ite_eq_or_eq _ _ _
  · rw [← sameValue_iff]
    cases sameValue s.desc.r g h with
    | true => exact iff_of_true rfl rfl
    | false => exact iff_of_false (by decide) nofun

/-- On canonical rings equal values are equal data. -/
theorem sameValue_iff_of_wf {r : Nat} {g h : Instance} (hg : Ring.wf r g.ring = true) (hh : Ring.wf r h.ring = true) :
    sameValue r g h = true ↔ g.ring = h.ring ∧ g.cursor = h.cursor := by
  rw [sameValue_iff]
  refine and_congr_left fun _ => ⟨Ring.ext_wf hg hh, fun heq j _ => ?_⟩
  rw [heq]

/-- Settles O38: each law is the law of `=` on every word and on the cursor. -/
theorem equalityIsAnEquivalence : Obligations.EqualityIsAnEquivalence := by
  intro r f g h
  refine ⟨(sameValue_iff r g g).mpr ⟨fun _ _ => rfl, rfl⟩, ?_, fun hfg hgh => ?_, sameValue_iff_of_wf⟩
  · rw [Bool.eq_iff_iff, sameValue_iff, sameValue_iff]
    exact and_congr (forall₂_congr fun _ _ => eq_comm) eq_comm
  · obtain ⟨hw, hc⟩ := (sameValue_iff r f g).mp hfg
    obtain ⟨hw', hc'⟩ := (sameValue_iff r g h).mp hgh
    exact (sameValue_iff r f h).mpr ⟨fun j hj => (hw j hj).trans (hw' j hj), hc.trans hc'⟩

end Sys2Proof.Machine
end

section
/-! The proofs about `SEED` (42_engine.md R101, R112): what the ring holds afterwards, and that nothing older is left in it. -/

namespace Sys2Proof.Machine

/-- What a `SEED` changes of its instance: the ring, the cursor and the phase (R101). -/
theorem seedInstance_eq (d : Descriptor) (data : List Word) (g : Instance) :
    seedInstance d data g = { g with ring := (seedInstance d data g).ring, cursor := 0, phase := .seeded } := by
  rw [Instance.mk.injEq]
  simp [seedInstance]

@[simp] theorem seedInstance_cursor (d : Descriptor) (data : List Word) (g : Instance) :
    (seedInstance d data g).cursor = 0 := by simp [seedInstance]

@[simp] theorem seedInstance_phase (d : Descriptor) (data : List Word) (g : Instance) :
    (seedInstance d data g).phase = .seeded := rfl

theorem seedInstance_wf {d : Descriptor} (hr : 0 < d.r) (data : List Word) {g : Instance}
    (h : Ring.wf d.r g.ring = true) : Ring.wf d.r (seedInstance d data g).ring = true :=
  Instance.load_wf hr _ 0 h

/-- Word `j` of the ring is data word `j`. -/
theorem seedInstance_read {d : Descriptor} {data : List Word} {g : Instance} {j : Nat}
    (h : Ring.wf d.r g.ring = true) (hl : d.r ≤ data.length) (hj : j < d.r) :
    data[j]? = some ((seedInstance d data g).ring.read j) := by
  have hread := Instance.load_read (g := g.clrcur) (Nat.zero_lt_of_lt hj) (data.take d.r) 0 rfl h
    (by rw [Nat.zero_add]; exact List.length_take_le _ _) j
  have hdata : data[j]? = some data[j] := List.getElem?_eq_getElem _
  rw [if_pos (Nat.zero_le j), Nat.sub_zero, List.getElem?_take_of_lt hj, hdata] at hread
  rw [hdata]
  exact congrArg some hread.symm

/-- `SEED` with at least `r` data words, on an unfaulted instance. -/
theorem exec_seed_long {s : State} {g : Instance} {data : List Word} (hg : s.insts[s.sel]? = some g)
    (hf : g.fault = false) (hl : s.desc.r ≤ data.length) :
    exec (.seed data) s = .next ((s.putInst (seedInstance s.desc.toDescriptor data g)).respond .ok (some 0)) :=
  (hostGate_quiet hg hf _).trans (if_pos hl)

/-- Settles O20: the ring is the one the load leaves. -/
theorem seedLoadsTheRing : Obligations.SeedLoadsTheRing := by
  intro s g data hg hf hl hwf
  refine ⟨(seedInstance s.desc.toDescriptor data g).ring, seedInstance_wf (Descriptor.wf_r s.desc.ok) data hwf,
    fun j hj => seedInstance_read hwf hl hj, ?_⟩
  rw [exec_seed_long hg hf hl, seedInstance_eq]
  rfl

/-- Words past the first `r` have no effect. -/
theorem seedInstance_congr_take {d : Descriptor} {data data' : List Word} (h : data.take d.r = data'.take d.r)
    (g : Instance) : seedInstance d data g = seedInstance d data' g := by
  unfold seedInstance
  rw [h]

/-- No word of the ring before the load is left after it. -/
theorem seedInstance_ring_congr {d : Descriptor} {data : List Word} {g h : Instance} (hr : 0 < d.r)
    (hg : Ring.wf d.r g.ring = true) (hh : Ring.wf d.r h.ring = true) (hl : d.r ≤ data.length) :
    (seedInstance d data g).ring = (seedInstance d data h).ring := by
  refine Ring.ext_wf (seedInstance_wf hr data hg) (seedInstance_wf hr data hh) fun j hj => ?_
  exact Option.some.inj ((seedInstance_read hg hl hj).symm.trans (seedInstance_read hh hl hj))

/-- Settles O22: the load reads the first `r` data words only, and writes every word of the ring. -/
theorem seedReplacesPriorState : Obligations.SeedReplacesPriorState := by
  intro d g h data data' hd hg hh hl hsame
  rw [← seedInstance_congr_take hsame h]
  refine ⟨seedInstance_ring_congr (Descriptor.wf_r hd) hg hh hl, ?_, rfl⟩
  rw [seedInstance_cursor, seedInstance_cursor]

end Sys2Proof.Machine
end

section
/-! The proofs about `RECUR` (42_engine.md R103): the recurrence is a left fold, hence linear in the ring words. -/

namespace Sys2Proof.Machine

theorem Descriptor.wf_lengths {d : Descriptor} (h : d.wf = true) : 3 ≤ d.n ∧ d.P.length = d.n ∧ d.K.length = d.n := by
  simp only [Descriptor.wf, Bool.and_eq_true, decide_eq_true_eq] at h
  omega

/-- A checked descriptor has a first tap and a first constant. -/
theorem Descriptor.wf_cons {d : Descriptor} (h : d.wf = true) : ∃ p ps k ks, d.P = p :: ps ∧ d.K = k :: ks := by
  obtain ⟨hn, hP, hK⟩ := Descriptor.wf_lengths h
  obtain ⟨p, ps, hp⟩ := List.exists_cons_of_length_pos (l := d.P) (by omega)
  obtain ⟨k, ks, hk⟩ := List.exists_cons_of_length_pos (l := d.K) (by omega)
  exact ⟨p, ps, k, ks, hp, hk⟩

/-- The stages of R103 after the first, as a fold of `mixValue`: `read` gives the tap word at an offset. -/
def foldStages (read : Int → Word) (stages : List (Int × Int)) (acc : Word) : Word :=
  stages.foldl (fun acc pk => mixValue (acc ^^^ read pk.1) pk.2) acc

@[simp] theorem foldStages_nil (read : Int → Word) (acc : Word) : foldStages read [] acc = acc := rfl

@[simp] theorem foldStages_cons (read : Int → Word) (pk : Int × Int) (stages : List (Int × Int)) (acc : Word) :
    foldStages read (pk :: stages) acc = foldStages read stages (mixValue (acc ^^^ read pk.1) pk.2) := rfl

/-- For legal constants the model's fold is that fold. -/
theorem foldTaps_eq_foldStages (read : Int → Word) {stages : List (Int × Int)}
    (h : ∀ pk ∈ stages, ShiftLegal pk.2) (acc : Word) :
    foldTaps acc (stages.map (Prod.map read id)) = some (foldStages read stages acc) := by
  induction stages generalizing acc with
  | nil => rfl
  | cons pk stages ih =>
    obtain ⟨hpk, hrest⟩ := List.forall_mem_cons.mp h
    rw [foldStages_cons, ← ih hrest]
    simp only [List.map_cons, Prod.map_apply', id, foldTaps, mix_legal hpk, Option.bind_some]

/-- `RECUR` of a checked descriptor. -/
theorem recur_eq {d : Descriptor} {p k : Int} {ps ks : List Int} (h : d.wf = true) (hP : d.P = p :: ps)
    (hK : d.K = k :: ks) (g : Instance) :
    recur d g = some (foldStages (g.readAt d.r) (ps.zip ks) (mixValue (g.readAt d.r p) k)) := by
  obtain ⟨-, hPn, hKn⟩ := Descriptor.wf_lengths h
  obtain ⟨hk, hks⟩ := List.forall_mem_cons.mp (hK ▸ Descriptor.wf_K h)
  calc recur d g = combine ((d.P.zip d.K).map (Prod.map (g.readAt d.r) id)) := by
        rw [recur, taps, List.take_of_length_le hPn.le, List.take_of_length_le hKn.le, List.zip_map_left]
    _ = foldTaps (mixValue (g.readAt d.r p) k) ((ps.zip ks).map (Prod.map (g.readAt d.r) id)) := by
        simp [hP, hK, combine, mix_legal hk]
    _ = some (foldStages (g.readAt d.r) (ps.zip ks) (mixValue (g.readAt d.r p) k)) :=
        foldTaps_eq_foldStages _ (fun _ hpk => hks _ (List.of_mem_zip hpk).2) _

/-- Settles O25: the model's fold over the descriptor's taps and constants. -/
theorem recurrenceIsTheLeftFold : Obligations.RecurrenceIsTheLeftFold := fun _ g _ _ _ _ hd hP hK =>
  recur_eq hd hP hK g

/-- Every stage is linear, so the fold is. -/
theorem foldStages_xor (read read' : Int → Word) (stages : List (Int × Int)) (acc acc' : Word) :
    foldStages (fun off => read off ^^^ read' off) stages (acc ^^^ acc') =
      foldStages read stages acc ^^^ foldStages read' stages acc' := by
  induction stages generalizing acc acc' with
  | nil => rfl
  | cons pk stages ih =>
    have hswap : acc ^^^ acc' ^^^ (read pk.1 ^^^ read' pk.1) = (acc ^^^ read pk.1) ^^^ (acc' ^^^ read' pk.1) := by ac_rfl
    simp only [foldStages_cons]
    rw [hswap, mixValue_xor, ih]

/-- Settles O26: the tap words of the sum are the sums of the tap words, and the fold is linear in them. -/
theorem recurrenceIsLinear : Obligations.RecurrenceIsLinear := by
  intro d g h x hd hh hx hsum
  obtain ⟨p, ps, k, ks, hP, hK⟩ := Descriptor.wf_cons hd
  have hread : x.readAt d.r = fun off => g.readAt d.r off ^^^ h.readAt d.r off := by
    funext off
    rw [Instance.readAt, Instance.readAt, Instance.readAt, hx, hh, hsum]
  refine ⟨_, _, recur_eq hd hP hK g, recur_eq hd hP hK h, ?_⟩
  rw [recur_eq hd hP hK x, hread, mixValue_xor, foldStages_xor]

/-- A linear map sends zero to zero. -/
theorem recur_zero {d : Descriptor} {g : Instance} (hd : d.wf = true) (hz : ∀ a, g.ring.read a = 0) :
    recur d g = some 0 := by
  obtain ⟨u, v, hu, hv, huv⟩ := recurrenceIsLinear d g g g hd rfl rfl fun a => by rw [hz a]; rfl
  have hsame : u = v := Option.some.inj (hu.symm.trans hv)
  rw [huv, hsame, BitVec.xor_self]
  rfl

/-- `RECUR` reads the ring and the cursor only. -/
theorem recur_congr (d : Descriptor) {g h : Instance} (hring : g.ring = h.ring) (hcur : g.cursor = h.cursor) :
    recur d g = recur d h := by
  have hread : g.readAt d.r = h.readAt d.r := by
    funext off
    rw [Instance.readAt, Instance.readAt, hring, hcur]
  rw [recur, recur, taps, taps, hread]

end Sys2Proof.Machine
end

section
/-! The proofs about `NEXT` (42_engine.md R102, R113, R117): it is one write and one advance, whatever the order inside it, and
its output can be read back. -/

namespace Sys2Proof.Machine

/-! ### The orders of `NEXT` (R117) -/

/-- The second of two writes to one address is the one that counts. -/
theorem Ring.write_write {m : Ring} {r a : Nat} (hm : Ring.wf r m = true) (har : a < r) (v v' : Word) :
    Ring.write (Ring.write m a v) a v' = Ring.write m a v' := by
  have hm' := Ring.wf_write v har hm
  refine Ring.ext_wf (Ring.wf_write v' har hm') (Ring.wf_write v' har hm) fun b _ => ?_
  rw [Ring.read_write hm', Ring.read_write hm, Ring.read_write hm]
  split <;> rfl

/-- After the advance, offset `off - 1` reaches the word just written at `off`, so writing there overwrites it. -/
theorem Instance.writeAt_advance_writeAt {r : Nat} (hr : 0 < r) {g : Instance} (h : Ring.wf r g.ring = true)
    (off : Int) (v v' : Word) :
    ((g.writeAt r off v).advance r).writeAt r (off - 1) v' = (g.writeAt r off v').advance r := by
  have haddr : phys r ((g.writeAt r off v).advance r).cursor (off - 1) = phys r g.cursor off := phys_advance g.cursor off
  rw [Instance.writeAt, haddr]
  simp only [Instance.writeAt, Instance.advance, Ring.write_write h (phys_lt hr g.cursor off)]

/-- Settles O29: the overwrite after the advance hits the word the first write wrote. -/
theorem singleWriteNextIsEquivalent : Obligations.SingleWriteNextIsEquivalent := by
  intro d g hd hwf
  obtain ⟨z, hz⟩ := recur_some hd g
  obtain ⟨y, hy⟩ := temper_some hd z
  simp only [nextStep, nextStepOnce, hz, hy, Option.bind_some]
  cases d.storesBack with
  | false => rfl
  | true =>
    simp only [if_true]
    rw [Instance.writeAt_advance_writeAt (Descriptor.wf_r hd) hwf]

/-! ### What a `NEXT` does (R102) -/

/-- `NEXT` of a checked descriptor: the raw word, the emitted word, and one write before one advance. -/
theorem nextStep_eq {d : Descriptor} {g : Instance} (hd : d.wf = true) (hwf : Ring.wf d.r g.ring = true) :
    ∃ z y, recur d g = some z ∧ temper d z = some y ∧
      nextStep d g = some ((g.writeAt d.r d.w (if d.storesBack then y else z)).advance d.r, y) := by
  obtain ⟨z, hz⟩ := recur_some hd g
  obtain ⟨y, hy⟩ := temper_some hd z
  refine ⟨z, y, hz, hy, ?_⟩
  rw [singleWriteNextIsEquivalent d g hd hwf]
  simp only [nextStepOnce, hz, hy, Option.bind_some]

/-- The inversion lemma to it. -/
theorem nextStep_written {d : Descriptor} {g g' : Instance} {y : Word} (hd : d.wf = true)
    (hwf : Ring.wf d.r g.ring = true) (h : nextStep d g = some (g', y)) :
    ∃ z, recur d g = some z ∧ temper d z = some y ∧
      g' = (g.writeAt d.r d.w (if d.storesBack then y else z)).advance d.r := by
  obtain ⟨z, y', hz, hy, hn⟩ := nextStep_eq hd hwf
  rw [hn, Option.some.injEq, Prod.mk.injEq] at h
  obtain ⟨rfl, rfl⟩ := h
  exact ⟨z, hz, hy, rfl⟩

/-- `NEXT` on a seeded, unfaulted instance that does not raise. -/
theorem exec_next_seeded {s : State} {g g' : Instance} {y : Word} (hg : s.insts[s.sel]? = some g)
    (hf : g.fault = false) (hp : g.phase = .seeded) (hn : nextStep s.desc.toDescriptor g = some (g', y)) :
    exec .next s = .next ((s.putInst g').respond .ok (some y)) := by
  refine (hostGate_quiet hg hf _).trans ?_
  simp only [hp, hn]

/-- Settles O23: the one write of `nextStep_eq`, read word by word. -/
theorem nextWritesOneWordAndAnswers : Obligations.NextWritesOneWordAndAnswers := by
  intro s g hg hwf hf hp
  obtain ⟨z, y, hz, hy, hn⟩ := nextStep_eq s.desc.ok hwf
  exact ⟨z, y, _, hz, hy, Ring.wf_write _ (phys_lt (Descriptor.wf_r s.desc.ok) g.cursor s.desc.w) hwf,
    fun a => Ring.read_write hwf _ a _, exec_next_seeded hg hf hp hn⟩

theorem nextStep_wf {d : Descriptor} {g g' : Instance} {y : Word} (hd : d.wf = true) (hwf : Ring.wf d.r g.ring = true)
    (h : nextStep d g = some (g', y)) : Ring.wf d.r g'.ring = true := by
  obtain ⟨z, -, -, rfl⟩ := nextStep_written hd hwf h
  exact Ring.wf_write _ (phys_lt (Descriptor.wf_r hd) g.cursor d.w) hwf

theorem nextStep_cursor {d : Descriptor} {g g' : Instance} {y : Word} (h : nextStep d g = some (g', y)) :
    g'.cursor = (g.cursor + 1) % d.r := by
  obtain ⟨z, -, -, rfl⟩ := nextStep_some h
  split <;> rfl

/-- `j` steps after a `NEXT` are `j + 1` steps in all. -/
theorem nextStep_cursor_add {d : Descriptor} {g g' : Instance} {y : Word} (h : nextStep d g = some (g', y)) (j : Nat) :
    g'.cursor + j ≡ g.cursor + (j + 1) [MOD d.r] := by
  rw [nextStep_cursor h, Nat.add_comm j 1, ← Nat.add_assoc]
  exact (Nat.mod_modEq _ _).add_right j

/-- The ring afterwards, word by word: only the slot at offset `w` is written. -/
theorem nextStep_read {d : Descriptor} {g g' : Instance} {y : Word} (hd : d.wf = true) (hwf : Ring.wf d.r g.ring = true)
    (h : nextStep d g = some (g', y)) :
    ∃ z, recur d g = some z ∧ ∀ a, g'.ring.read a =
      if a = phys d.r g.cursor d.w then (if d.storesBack then y else z) else g.ring.read a := by
  obtain ⟨z, hz, -, rfl⟩ := nextStep_written hd hwf h
  exact ⟨z, hz, fun a => Ring.read_write hwf _ a _⟩

/-! ### The output is in the state afterwards (R113) -/

theorem temper_of_raw {d : Descriptor} (h : d.tag = .none ∨ d.tag = .a) (z : Word) : temper d z = some z := by
  obtain h | h := h <;> simp [temper, temperRaw, h]

theorem temper_of_pass {d : Descriptor} (h : d.tag = .b ∨ d.tag = .c) (z : Word) : temper d z = mix z d.kt := by
  obtain h | h := h <;> simp [temper, temperPass, h]

/-- The word written sits at offset `w - 1` of the cursor after the advance. -/
theorem nextStep_readAt {d : Descriptor} {g g' : Instance} {y : Word} (hd : d.wf = true)
    (hwf : Ring.wf d.r g.ring = true) (h : nextStep d g = some (g', y)) :
    ∃ z, temper d z = some y ∧ g'.readAt d.r (d.w - 1) = if d.storesBack then y else z := by
  obtain ⟨z, -, hy, rfl⟩ := nextStep_written hd hwf h
  refine ⟨z, hy, ?_⟩
  rw [Instance.readAt_advance, Instance.readAt_writeAt (Descriptor.wf_r hd) hwf, sub_self, if_pos (dvd_zero _)]

/-- Settles O30: the word written is the output itself when it was stored back or not tempered, and is tempered once more
otherwise. -/
theorem outputIsReadFromThePostState : Obligations.OutputIsReadFromThePostState := by
  intro d g g' y hd hwf h
  obtain ⟨z, hy, hread⟩ := nextStep_readAt hd hwf h
  cases hs : d.storesBack with
  | true =>
    rw [hs, if_pos rfl] at hread
    exact ⟨fun _ => hread, nofun⟩
  | false =>
    rw [hs, if_neg nofun] at hread
    rw [hread]
    refine ⟨fun hraw => ?_, fun _ hpass => (temper_of_pass hpass z).symm.trans hy⟩
    have htag : d.tag = .none ∨ d.tag = .a := hraw.resolve_left nofun
    exact Option.some.inj ((temper_of_raw htag z).symm.trans hy)

end Sys2Proof.Machine
end

section
/-! The proofs about successive `NEXT`s (42_engine.md R109, R112, R115, R116): the zero ring stays zero, a written slot is left
alone for `r - 1` steps, and the outputs depend on ring and cursor only. -/

namespace Sys2Proof.Machine

theorem runNext_succ {d : Descriptor} {k : Nat} {g g₁ g' : Instance} {y : Word} {ys : List Word}
    (hn : nextStep d g = some (g₁, y)) (hk : runNext d k g₁ = some (g', ys)) :
    runNext d (k + 1) g = some (g', y :: ys) := by
  simp [runNext, hn, hk]

/-! ### The zero ring (R115) -/

theorem temper_zero {d : Descriptor} (hd : d.wf = true) : temper d 0 = some 0 := by
  rw [temper_legal (Descriptor.wf_kt hd)]
  cases d.tag <;> simp only [mixValue_zero_word]

/-- One `NEXT` on the zero ring writes a zero and answers a zero. -/
theorem nextStep_zero {d : Descriptor} {g : Instance} (hd : d.wf = true) (hwf : Ring.wf d.r g.ring = true)
    (hz : ∀ a, g.ring.read a = 0) : ∃ g', nextStep d g = some (g', 0) ∧ ∀ a, g'.ring.read a = 0 := by
  obtain ⟨z, y, hrec, hy, hn⟩ := nextStep_eq hd hwf
  obtain rfl : 0 = z := Option.some.inj ((recur_zero hd hz).symm.trans hrec)
  obtain rfl : 0 = y := Option.some.inj ((temper_zero hd).symm.trans hy)
  refine ⟨_, hn, fun a => ?_⟩
  rw [ite_self, Instance.advance_ring, Instance.writeAt_ring, Ring.read_write hwf, hz, ite_self]

/-- Settles O31, by induction on the number of `NEXT`s. -/
theorem zeroRingIsAFixedPoint : Obligations.ZeroRingIsAFixedPoint := by
  intro d g k hd hwf hz
  induction k generalizing g with
  | zero => exact ⟨g, [], rfl, rfl, hz⟩
  | succ k ih =>
    obtain ⟨g₁, hn, hz₁⟩ := nextStep_zero hd hwf hz
    obtain ⟨g', ys, hrun, rfl, hz'⟩ := ih g₁ (nextStep_wf hd hwf hn) hz₁
    exact ⟨g', _, runNext_succ hn hrun, rfl, hz'⟩

/-! ### The age of a slot (R116) -/

/-- An offset reaches the same slot from two cursors exactly when they agree modulo `r`. -/
theorem phys_eq_iff_modEq {r : Nat} (hr : 0 < r) (c c' : Nat) (off : Int) :
    phys r c off = phys r c' off ↔ c ≡ c' [MOD r] := by
  have hshift : phys r c' off = phys r c (off + (c' - c)) := by
    unfold phys
    congr 2
    ring
  have hdiff : off - (off + ((c' : Int) - c)) = c - c' := by ring
  rw [hshift, phys_eq_iff hr, hdiff, Nat.ModEq.comm, Nat.modEq_iff_dvd]

/-- Where `k` `NEXT`s of a checked descriptor end: the cursor has moved on by `k`, and every slot that none of the `k` cursors
reached at offset `w` keeps its word. -/
theorem runNext_some {d : Descriptor} (hd : d.wf = true) (k : Nat) {g : Instance} (hwf : Ring.wf d.r g.ring = true) :
    ∃ g' ys, runNext d k g = some (g', ys) ∧ Ring.wf d.r g'.ring = true ∧ g'.cursor ≡ g.cursor + k [MOD d.r]
      ∧ ∀ a, (∀ j, j < k → a ≠ phys d.r (g.cursor + j) d.w) → g'.ring.read a = g.ring.read a := by
  induction k generalizing g with
  | zero => exact ⟨g, [], rfl, hwf, rfl, fun _ _ => rfl⟩
  | succ k ih =>
    obtain ⟨g₁, y, hn⟩ := checkedDescriptorNeverRaisesInNext d g hd
    obtain ⟨g', ys, hrun, hwf', hcur, hkeep⟩ := ih (nextStep_wf hd hwf hn)
    obtain ⟨z, -, hread⟩ := nextStep_read hd hwf hn
    refine ⟨g', _, runNext_succ hn hrun, hwf', hcur.trans (nextStep_cursor_add hn k), fun a ha => ?_⟩
    have hlater : ∀ j, j < k → a ≠ phys d.r (g₁.cursor + j) d.w := fun j hj => by
      rw [(phys_eq_iff_modEq (Descriptor.wf_r hd) _ _ d.w).mpr (nextStep_cursor_add hn j)]
      exact ha (j + 1) (by omega)
    rw [hkeep a hlater, hread]
    exact if_neg (ha 0 k.succ_pos)

/-- With the cursor `k + 1 ≤ r` steps further on, an offset reaches the slot it reached before only once round the ring. -/
theorem phys_after_iff {r k c c' : Nat} (hk : k < r) (hc : c' ≡ c + (k + 1) [MOD r]) (off : Int) :
    phys r c' off = phys r c off ↔ k = r - 1 := by
  rw [phys_eq_iff_modEq (Nat.zero_lt_of_lt hk)]
  calc c' ≡ c [MOD r] ↔ c + (k + 1) ≡ c [MOD r] := ⟨hc.symm.trans, hc.trans⟩
    _ ↔ r ∣ k + 1 := Nat.add_modEq_left_iff
    _ ↔ k = r - 1 := ⟨fun h => by have := Nat.le_of_dvd k.succ_pos h; omega, fun h => ⟨1, by omega⟩⟩

/-- The slot a first `NEXT` writes, after `k < r` more of them: its word is still there, and the next one to come writes it
exactly when `k` is `r - 1`. -/
theorem runNext_slot {d : Descriptor} {g first : Instance} {y : Word} {k : Nat} (hd : d.wf = true)
    (hwf : Ring.wf d.r g.ring = true) (hn : nextStep d g = some (first, y)) (hk : k < d.r) :
    ∃ gk ys, runNext d k first = some (gk, ys) ∧ Ring.wf d.r gk.ring = true
      ∧ gk.ring.read (phys d.r g.cursor d.w) = first.ring.read (phys d.r g.cursor d.w)
      ∧ (phys d.r gk.cursor d.w = phys d.r g.cursor d.w ↔ k = d.r - 1) := by
  obtain ⟨gk, ys, hrun, hwfk, hcur, hkeep⟩ := runNext_some hd k (nextStep_wf hd hwf hn)
  refine ⟨gk, ys, hrun, hwfk, hkeep _ fun j hj heq => ?_,
    phys_after_iff hk (hcur.trans (nextStep_cursor_add hn k)) d.w⟩
  have hlast : j = d.r - 1 := (phys_after_iff (hj.trans hk) (nextStep_cursor_add hn j) d.w).mp heq.symm
  omega

/-- Settles O32: the cursor comes back to the slot after `r` advances and not before, and a `NEXT` writes one slot only. -/
theorem writtenSlotIsTheOldest : Obligations.WrittenSlotIsTheOldest := by
  intro d g hd hwf _
  have hr : 0 < d.r := Descriptor.wf_r hd
  obtain ⟨first, y₁, hn⟩ := checkedDescriptorNeverRaisesInNext d g hd
  obtain ⟨last, ys, hrun, hwfl, -, hslot⟩ := runNext_slot hd hwf hn (Nat.sub_one_lt_of_lt hr)
  obtain ⟨again, y, hagain⟩ := checkedDescriptorNeverRaisesInNext d last hd
  obtain ⟨z, hz, hread⟩ := nextStep_read hd hwfl hagain
  rw [hslot.mpr rfl] at hread
  refine ⟨first, y₁, hn, fun k hk => ?_, last, ys, again, z, y, hrun, hagain, hz, hread⟩
  obtain ⟨gk, zs, hrunk, -, hkept⟩ := runNext_slot hd hwf hn hk
  exact ⟨gk, zs, hrunk, hkept⟩

/-! ### Outputs depend on the seed alone (R109, R112) -/

theorem nextStep_congr {d : Descriptor} {g h g' : Instance} {y : Word} (hring : g.ring = h.ring)
    (hcur : g.cursor = h.cursor) (hn : nextStep d g = some (g', y)) :
    ∃ h', nextStep d h = some (h', y) ∧ g'.ring = h'.ring ∧ g'.cursor = h'.cursor := by
  obtain ⟨z, hz, hy, rfl⟩ := nextStep_some hn
  rw [recur_congr d hring hcur] at hz
  simp only [nextStep, hz, hy, Option.bind_some]
  refine ⟨_, rfl, ?_⟩
  cases d.storesBack <;> simp [hring, hcur]

/-- The outputs of a run, and the ring and cursor it ends with, depend on the ring and cursor it starts with. -/
theorem runNext_congr {d : Descriptor} {k : Nat} {g h : Instance} (hd : d.wf = true) (hring : g.ring = h.ring)
    (hcur : g.cursor = h.cursor) :
    ∃ g' h' ys, runNext d k g = some (g', ys) ∧ runNext d k h = some (h', ys)
      ∧ g'.ring = h'.ring ∧ g'.cursor = h'.cursor ∧ ys.length = k := by
  induction k generalizing g h with
  | zero => exact ⟨g, h, [], rfl, rfl, hring, hcur, rfl⟩
  | succ k ih =>
    obtain ⟨g₁, y, hg⟩ := checkedDescriptorNeverRaisesInNext d g hd
    obtain ⟨h₁, hh, hring₁, hcur₁⟩ := nextStep_congr hring hcur hg
    obtain ⟨g', h', ys, hg', hh', hring', hcur', hlen⟩ := ih hring₁ hcur₁
    exact ⟨g', h', y :: ys, runNext_succ hg hg', runNext_succ hh hh', hring', hcur', congrArg (· + 1) hlen⟩

/-- Settles O33: the two seeded instances have the same ring and cursor. -/
theorem outputsDependOnSeedAlone : Obligations.OutputsDependOnSeedAlone := by
  intro d g h data data' k hd hg hh hl hsame
  obtain ⟨hring, hcur, -⟩ := seedReplacesPriorState d g h data data' hd hg hh hl hsame
  exact runNext_congr hd hring hcur

end Sys2Proof.Machine
end

section
/-! The proof about a step as one whole transaction (42_engine.md R100). -/

namespace Sys2Proof.Machine

/-- Settles O48: port by port, the fetch hands the decoded instruction on, with its port selected and the queue cut. -/
theorem stepRunsTheDecodedInstruction : Obligations.StepRunsTheDecodedInstruction := by
  intro s p rest
  refine ⟨fun cw data i left hp hd => ?_, fun rop off v hp => ?_, fun kf v hp => ?_, fun tf ktf z hp => ?_⟩
  · rw [step_command hp, State.nInst, hd]
    cases left <;> rfl
  · simp only [step, fetch, hp, State.accept]
  · simp only [step, fetch, hp, State.accept]
  · simp only [step, fetch, hp, State.accept]

end Sys2Proof.Machine
end

section
/-! The proofs about tempering_xform_a_b_c (43_tempering.md R125 to R131): every tag is one shift-xor pass, of amount 0 for the
raw word, and without store-back the pass reaches the emitted words only. -/

namespace Sys2Proof.Machine

/-! ### The four operations (R126 to R129) -/

/-- Settles O39: the raw word and one pass of `MIX` both have a value, and the unit returns it. -/
theorem temperReturnsTransformedWord : Obligations.TemperReturnsTransformedWord := by
  intro s g z kt hg
  refine ⟨answerUnit_some hg z, answerUnit_some hg z, fun hlo hhi => ?_⟩
  have hpass : answerUnit s (temperPass z kt) = .next (s.unitReply (some (mixValue z kt))) := by
    rw [temperPass, mix_legal ⟨hlo, hhi⟩]
    exact answerUnit_some hg _
  exact ⟨hpass, hpass⟩

/-! ### `TEMPER` as a map on words (R125, R86) -/

theorem Tag.raw_or_pass (tag : Tag) : (tag = .none ∨ tag = .a) ∨ (tag = .b ∨ tag = .c) := by
  cases tag <;> decide

theorem temper_of_pass_legal {d : Descriptor} (hd : d.wf = true) (h : d.tag = .b ∨ d.tag = .c) (z : Word) :
    temper d z = some (mixValue z d.kt) :=
  (temper_of_pass h z).trans (mix_legal (Descriptor.wf_kt hd))

/-- Whatever its tag, a checked descriptor's `TEMPER` is one shift-xor pass: of amount 0 where it returns the raw word. -/
theorem temper_eq_mixValue {d : Descriptor} (hd : d.wf = true) : ∃ k, ∀ z, temper d z = some (mixValue z k) := by
  obtain hraw | hpass := Tag.raw_or_pass d.tag
  · exact ⟨0, fun z => by rw [temper_of_raw hraw, mixValue_zero_amount]⟩
  · exact ⟨d.kt, temper_of_pass_legal hd hpass⟩

/-- Settles O40: bijectivity and linearity are those of the one pass. -/
theorem temperIsALinearBijection : Obligations.TemperIsALinearBijection := by
  intro d hd
  refine ⟨fun z => ⟨fun h => temper_of_raw h z, fun h => temper_of_pass_legal hd h z⟩, temper_zero hd, ?_⟩
  obtain ⟨k, hk⟩ := temper_eq_mixValue hd
  simp only [hk, Option.some.injEq]
  exact ⟨(mixValue_bijective k).existsUnique, fun a b => ⟨_, _, rfl, rfl, mixValue_xor a b k⟩⟩

/-! ### Without store-back (R130, R131) -/

/-- A `NEXT` that does not store back leaves the raw word in the ring, whatever word it emits. -/
theorem nextStep_of_not_storesBack {d : Descriptor} {g : Instance} {z y : Word} (hs : d.storesBack = false)
    (hz : recur d g = some z) (hy : temper d z = some y) :
    nextStep d g = some ((g.writeAt d.r d.w z).advance d.r, y) := by
  simp [nextStep, hz, hy, hs]

/-- The descriptor with tag `a` has the same recurrence, does not store back, and emits the raw word. -/
theorem nextStep_tag_a {d : Descriptor} {g : Instance} {z : Word} (hz : recur d g = some z) :
    nextStep { d with tag := .a } g = some ((g.writeAt d.r d.w z).advance d.r, z) :=
  nextStep_of_not_storesBack rfl hz rfl

/-- Settles O41, by induction on the number of `NEXT`s. -/
theorem withoutStoreBackOnlyOutputsDiffer : Obligations.WithoutStoreBackOnlyOutputsDiffer := by
  intro d g k hd hs
  induction k generalizing g with
  | zero => exact ⟨g, [], [], rfl, rfl, rfl⟩
  | succ k ih =>
    obtain ⟨z, hz⟩ := recur_some hd g
    obtain ⟨y, hy⟩ := temper_some hd z
    obtain ⟨g', zs, ys, hraw, htempered, hmap⟩ := ih ((g.writeAt d.r d.w z).advance d.r)
    refine ⟨g', z :: zs, y :: ys, runNext_succ (nextStep_tag_a hz) hraw,
      runNext_succ (nextStep_of_not_storesBack hs hz hy) htempered, ?_⟩
    simp [hy, hmap]

end Sys2Proof.Machine
end

section
/-! The proofs about the VariantTable (44_variant_table.md): the check `WF(D)` clause by clause, the stored form, the seventeen
descriptors, and that no step writes the descriptor. -/

namespace Sys2Proof.Machine

/-! ### The check `WF(D)` (R136) and the check at build time (R156) -/

theorem Descriptor.wf_iff (d : Descriptor) :
    d.wf = true ↔
      1 ≤ d.r ∧ 3 ≤ d.n ∧ d.n ≤ 5 ∧ d.P.length = d.n ∧ d.K.length = d.n
        ∧ (∀ p ∈ d.P, 0 ≤ p ∧ p < (d.r : Int)) ∧ 0 ≤ d.w ∧ d.w < (d.r : Int)
        ∧ (∀ k ∈ d.K, ShiftLegal k) ∧ ShiftLegal d.kt := by
  simp only [Descriptor.wf, Bool.and_eq_true, List.all_eq_true, decide_eq_true_eq, and_assoc]

theorem State.build_eq_some_iff (d : Descriptor) (nInst : Nat) :
    (∃ s, State.build d nInst = some s) ↔ d.wf = true ∧ 1 ≤ nInst := by
  unfold State.build
  split
  · next h => exact ⟨fun _ => h, fun _ => ⟨_, rfl⟩⟩
  · next h => exact ⟨fun ⟨_, hs⟩ => absurd hs nofun, fun h' => absurd h' h⟩

/-- Settles O7: the check is the conjunction of its clauses, and building tests it and the number of instances. -/
theorem descriptorCheckAndBuild : Obligations.DescriptorCheckAndBuild := fun d nInst =>
  ⟨Descriptor.wf_iff d, State.build_eq_some_iff d nInst⟩

/-! ### The stored form (R140) -/

/-- A list stored element by element is loaded back when every element is. -/
theorem map_map_eq_self {α β : Type} {store : α → β} {load : β → α} {l : List α} (h : ∀ x ∈ l, load (store x) = x) :
    (l.map store).map load = l :=
  calc (l.map store).map load = l.map (load ∘ store) := List.map_map
    _ = l.map id := List.map_congr_left h
    _ = l := List.map_id l

theorem ofBool_eq_one_iff (b : Bool) : BitVec.ofBool b = 1#1 ↔ b = true := by cases b <;> decide

/-- Settles O6: field by field, `WF` puts every value in the range its stored field holds. -/
theorem storedDescriptorRoundTrip : Obligations.StoredDescriptorRoundTrip := by
  intro d hd
  obtain ⟨-, -, hn, -, -, hP, hw, -, hK, hkt⟩ := (Descriptor.wf_iff d).mp hd
  have taps : (d.P.map Int.toNat).map Int.ofNat = d.P := map_map_eq_self fun p hp => Int.toNat_of_nonneg (hP p hp).1
  have shifts : (d.K.map fieldOfShift).map shiftOfField = d.K :=
    map_map_eq_self fun k hk => shiftOfField_fieldOfShift (fieldHolds_of_shiftLegal (hK k hk))
  have count : (BitVec.ofNat 3 d.n).toNat = d.n := by
    rw [BitVec.toNat_ofNat, Nat.mod_eq_of_lt (by omega)]
  have const : shiftOfField (fieldOfShift d.kt) = d.kt := shiftOfField_fieldOfShift (fieldHolds_of_shiftLegal hkt)
  simp only [Descriptor.store, StoredDescriptor.load, taps, shifts, count, const, Int.toNat_of_nonneg hw,
    tagOfCode_tagCode, ofBool_eq_one_iff, Bool.decide_eq_true]

/-! ### The seventeen descriptors (R138, R139) -/

theorem VariantName.mem_all (v : VariantName) : v ∈ VariantName.all := by cases v <;> decide

theorem VariantName.tag_ne_none (v : VariantName) : v.tag ≠ .none := by cases v <;> decide

/-- Settles O8: a descriptor has the tag of its name, and `WF` holds by the table's construction (log 2). -/
theorem tableDescriptorsAreWellFormed : Obligations.TableDescriptorsAreWellFormed :=
  ⟨rfl, fun v => ⟨VariantName.mem_all v, rfl, variantDescriptor_wf v, VariantName.tag_ne_none v⟩⟩

/-! ### The descriptor is hardwired (R137) -/

/-- Settles O9: a step puts one instance in the place of another and leaves the descriptor alone. -/
theorem descriptorIsImmutable : Obligations.DescriptorIsImmutable := by
  intro s t h
  obtain ⟨-, rfl⟩ | ⟨x, g, g', -, -, -, hdesc, -, hinsts⟩ := step_next h
  · exact ⟨rfl, rfl⟩
  · exact ⟨hdesc, by rw [hinsts, List.length_set]⟩

end Sys2Proof.Machine
end

section
/-! The proofs about the faults and the refusal (60_exceptions.md R150 to R163, R175): which instruction takes fault entry with
which cause, what fault entry writes, and that a faulted instance stays as it is. -/

namespace Sys2Proof.Machine

/-! ### Fault entry (R160) -/

/-- Fault entry on an unfaulted instance: `FAULT <- 1; CAUSE <- code`, the response `(code, no data)`, nothing else. -/
theorem raise_quiet {g : Instance} (hf : g.fault = false) (c : Cause) (s : State) :
    raise c g s = .next ((s.putInst { g with fault := true, cause := c.code }).respond (.raised c) none) := by
  rw [raise, Instance.latch_of_quiet c g hf]

/-- When an instruction raises, and which cause (R151 to R153; 42_engine.md R107 for `EQ`). `NEXT` raises no
`PV_SHIFT_RANGE`, since a system's descriptor is a checked one. -/
inductive Raises (s : State) (g : Instance) : Instr → Cause → Prop where
  | next (hf : g.fault = false) (hp : g.phase = .unseeded) : Raises s g .next .nextUnseeded
  | seed {data : List Word} (hf : g.fault = false) (hl : data.length < s.desc.r) : Raises s g (.seed data) .seedShort
  | eq {peer : BitVec 28} (hf : g.fault = false) (hp : s.insts[peer.toNat]? = none) :
      Raises s g (.eq peer) .illegalCommand
  | mix {v : Word} {k : Int} (hk : ¬ ShiftLegal k) : Raises s g (.mix v k) .shiftRange
  | temperB {z : Word} {kt : Int} (hk : ¬ ShiftLegal kt) : Raises s g (.temperB z kt) .shiftRange
  | temperC {z : Word} {kt : Int} (hk : ¬ ShiftLegal kt) : Raises s g (.temperC z kt) .shiftRange

/-- An instruction that raises takes fault entry. -/
theorem exec_of_raises {s : State} {g : Instance} {i : Instr} {c : Cause} (h : Raises s g i c)
    (hg : s.insts[s.sel]? = some g) : exec i s = raise c g s := by
  have unit : ∀ {v : Word} {k : Int}, ¬ ShiftLegal k → answerUnit s (mix v k) = raise .shiftRange g s := by
    intro v k hk
    rw [mix_illegal hk]
    exact withPort_some hg _
  cases h with
  | next hf hp =>
    refine (hostGate_quiet hg hf _).trans ?_
    simp only [hp]
  | seed hf hl => exact (hostGate_quiet hg hf _).trans (if_neg (Nat.not_le.mpr hl))
  | eq hf hp =>
    refine (hostGate_quiet hg hf _).trans ?_
    simp only [hp]
  | mix hk => exact unit hk
  | temperB hk => exact unit hk
  | temperC hk => exact unit hk

/-! ### Fault entry is taken by nothing else -/

/-- From `s` to `t` no fault was entered: the selected instance, `g` before, keeps its `FAULT`, and what was answered is no
code of R150. -/
def NoFaultEntry (s t : State) (g : Instance) : Prop :=
  ∃ g' rep, t.insts[s.sel]? = some g' ∧ g'.fault = g.fault ∧ t.replies = s.replies ++ [rep]
    ∧ ∀ p c x, rep ≠ .response p (.raised c) x

theorem NoFaultEntry.replies_ne {s t : State} {g : Instance} (h : NoFaultEntry s t g) (p : Nat) (c : Cause)
    (x : Option Word) : t.replies ≠ s.replies ++ [.response p (.raised c) x] := by
  obtain ⟨g', rep, -, -, hrep, hne⟩ := h
  intro h
  rw [hrep] at h
  exact hne p c x (List.singleton_inj.mp (List.append_cancel_left h))

/-- Two ways an instruction completes: fault entry with its cause, or without a fault entered. -/
inductive FaultOutcome (s : State) (g : Instance) (i : Instr) (t : State) : Prop where
  | raised {c : Cause} (hc : Raises s g i c) (h : raise c g s = .next t)
  | noEntry (h : NoFaultEntry s t g)

section
variable {s t : State} {g : Instance} {i : Instr}

/-- The selected instance is left alone and something else than a code is answered. -/
theorem NoFaultEntry.answered (hg : s.insts[s.sel]? = some g) {rep : Reply}
    (h : (.next { s with replies := s.replies ++ [rep] } : Result) = .next t)
    (hrep : ∀ p c x, rep ≠ .response p (.raised c) x) : NoFaultEntry s t g := by
  obtain rfl := Host.Outcome.next.inj h
  exact ⟨g, rep, hg, rfl, rfl, hrep⟩

/-- The selected instance is written, but not its `FAULT`, and something else than a code is answered. -/
theorem NoFaultEntry.written (hg : s.insts[s.sel]? = some g) {g' : Instance} {rep : Reply}
    (h : (.next { s with insts := s.insts.set s.sel g', replies := s.replies ++ [rep] } : Result) = .next t)
    (hf : g'.fault = g.fault) (hrep : ∀ p c x, rep ≠ .response p (.raised c) x) : NoFaultEntry s t g := by
  obtain rfl := Host.Outcome.next.inj h
  obtain ⟨hlt, -⟩ := List.getElem?_eq_some_iff.mp hg
  exact ⟨g', rep, List.getElem?_set_self hlt, hf, rfl, hrep⟩

/-- A gated command: refused on a faulted instance, else its body decides. -/
theorem FaultOutcome.gated (hg : s.insts[s.sel]? = some g) {f : Instance → Result} (h : hostGate s f = .next t)
    (hbody : g.fault = false → f g = .next t → FaultOutcome s g i t) : FaultOutcome s g i t := by
  cases hf : g.fault with
  | true =>
    rw [hostGate_faulted hg hf] at h
    exact .noEntry (.answered hg h nofun)
  | false =>
    rw [hostGate_quiet hg hf] at h
    exact hbody hf h

/-- A shift on a unit's own port: the word is returned for a legal amount only (40_bitops.md R82). -/
theorem FaultOutcome.shifted (hg : s.insts[s.sel]? = some g) {v : Word} {k : Int}
    (h : answerUnit s (mix v k) = .next t) (hi : ¬ ShiftLegal k → Raises s g i .shiftRange) :
    FaultOutcome s g i t := by
  by_cases hk : ShiftLegal k
  · rw [mix_legal hk, answerUnit_some hg] at h
    exact .noEntry (.answered hg h nofun)
  · rw [mix_illegal hk] at h
    exact .raised (hi hk) ((withPort_some hg _).symm.trans h)

theorem execSeed_faultOutcome (hg : s.insts[s.sel]? = some g) {data : List Word} (h : execSeed data s = .next t) :
    FaultOutcome s g (.seed data) t := by
  refine .gated hg h fun hf h => ?_
  split at h
  · exact .noEntry (.written hg h (by simp [seedInstance]) nofun)
  · exact .raised (.seed hf (by omega)) h

theorem execNext_faultOutcome (hg : s.insts[s.sel]? = some g) (h : execNext s = .next t) :
    FaultOutcome s g .next t := by
  refine .gated hg h fun hf h => ?_
  cases hp : g.phase with
  | unseeded =>
    simp only [hp] at h
    exact .raised (.next hf hp) h
  | seeded =>
    obtain ⟨g', y, hn⟩ := checkedDescriptorNeverRaisesInNext s.desc.toDescriptor g s.desc.ok
    obtain ⟨-, hfault, -⟩ := nextStep_flags hn
    simp only [hp, hn] at h
    exact .noEntry (.written hg h hfault nofun)

theorem execEq_faultOutcome (hg : s.insts[s.sel]? = some g) {peer : BitVec 28} (h : execEq peer s = .next t) :
    FaultOutcome s g (.eq peer) t := by
  refine .gated hg h fun hf h => ?_
  cases hp : s.insts[peer.toNat]? with
  | none =>
    simp only [hp] at h
    exact .raised (.eq hf hp) h
  | some k =>
    simp only [hp] at h
    exact .noEntry (.answered hg h nofun)

/-- Every instruction takes fault entry as `Raises` says, or enters no fault. -/
theorem exec_faultOutcome (hg : s.insts[s.sel]? = some g) (h : exec i s = .next t) : FaultOutcome s g i t := by
  cases i with
  | seed data => exact execSeed_faultOutcome hg h
  | next => exact execNext_faultOutcome hg h
  | eq peer => exact execEq_faultOutcome hg h
  | min => exact .noEntry (.answered hg ((withPort_some hg _).symm.trans h) nofun)
  | max => exact .noEntry (.answered hg ((withPort_some hg _).symm.trans h) nofun)
  | size => exact .noEntry (.answered hg ((withPort_some hg _).symm.trans h) nofun)
  | ringAt off => exact .noEntry (.answered hg ((withPort_some hg _).symm.trans h) nofun)
  | ringSet off v => exact .noEntry (.written hg ((withPort_some hg _).symm.trans h) rfl nofun)
  | advance => exact .noEntry (.written hg ((withPort_some hg _).symm.trans h) rfl nofun)
  | clrcur => exact .noEntry (.written hg ((withPort_some hg _).symm.trans h) rfl nofun)
  | mix v k => exact .shifted hg h .mix
  | temperNone z kt => exact .noEntry (.answered hg ((answerUnit_some hg z).symm.trans h) nofun)
  | temperA z kt => exact .noEntry (.answered hg ((answerUnit_some hg z).symm.trans h) nofun)
  | temperB z kt => exact .shifted hg h .temperB
  | temperC z kt => exact .shifted hg h .temperC

/-- An instruction that answers a code on its port raised that cause. -/
theorem Raises.of_exec (hg : s.insts[s.sel]? = some g) (h : exec i s = .next t) {p : Nat} {c : Cause}
    {x : Option Word} (hrep : t.replies = s.replies ++ [.response p (.raised c) x]) : Raises s g i c := by
  obtain ⟨hc, h⟩ | hno := exec_faultOutcome hg h
  · obtain rfl := raise_next h
    cases List.append_cancel_left hrep
    exact hc
  · exact absurd hrep (hno.replies_ne p c x)

end

/-- Settles O45: only `raise` sets a fault, and it writes `FAULT` and `CAUSE`. -/
theorem faultEntryIsPrecise : Obligations.FaultEntryIsPrecise := by
  intro i s t g g' h hg hg' hf hf'
  obtain ⟨-, h⟩ | ⟨k, rep, hk, hkf, -, -⟩ := exec_faultOutcome hg h
  · rw [raise_quiet hf] at h
    exact ⟨_, (Host.Outcome.next.inj h).symm⟩
  · cases hk.symm.trans hg'
    rw [hf, hf'] at hkf
    cases hkf

/-! ### The causes of `SEED` and `NEXT` (R151 to R153) -/

/-- Settles O21: `seedShort` is the one cause of a `SEED`. -/
theorem shortSeedTakesFaultEntry : Obligations.ShortSeedTakesFaultEntry := by
  intro s g data hg
  constructor
  · intro h
    cases Raises.of_exec hg h rfl with
    | seed hf hl => exact ⟨hf, hl⟩
  · rintro ⟨hf, hl⟩
    exact (exec_of_raises (.seed hf hl) hg).trans (raise_quiet hf _ s)

/-- Settles O24: `nextUnseeded` is the one cause of a `NEXT`. -/
theorem unseededNextTakesFaultEntry : Obligations.UnseededNextTakesFaultEntry := by
  intro s g hg
  constructor
  · intro h
    cases Raises.of_exec hg h rfl with
    | next hf hp => exact ⟨hf, hp⟩
  · rintro ⟨hf, hp⟩
    exact (exec_of_raises (.next hf hp) hg).trans (raise_quiet hf _ s)

/-- A raise in `RECUR` or in `TEMPER` leaves the body of `NEXT` without a result (R153). -/
theorem nextStep_eq_none {d : Descriptor} {g : Instance}
    (h : recur d g = none ∨ ∃ z, recur d g = some z ∧ temper d z = none) : nextStep d g = none := by
  obtain hz | ⟨z, hz, hy⟩ := h
  · simp [nextStep, hz]
  · simp [nextStep, hz, hy]

/-- Settles O28: without a result the command is fault entry alone. -/
theorem shiftRangeDiscardsTheWholeNext : Obligations.ShiftRangeDiscardsTheWholeNext := by
  refine ⟨fun _ => rfl, fun d s g hg hf hp hraise => ?_⟩
  have hbody : nextWith d s = raise .shiftRange g s := by
    refine (hostGate_quiet hg hf _).trans ?_
    simp only [hp, nextStep_eq_none hraise]
  exact hbody.trans (raise_quiet hf _ s)

/-! ### An illegal command word (R154) -/

/-- What decodes to an instruction does not raise `ILLEGAL_COMMAND`: the one cause left, an absent `EQ` peer, is an illegal
word already. -/
theorem not_raises_illegalCommand_of_decodeHost {s : State} {g : Instance} {cw : Word} {ws left : List Word} {i : Instr}
    (h : decodeHost s.nInst cw ws = .instr i left) (t : State) (ht : t.insts = s.insts) :
    ¬ Raises t g i .illegalCommand := by
  intro hraise
  cases hraise with | eq _ hp =>
  obtain ⟨-, -, hi, -⟩ | ⟨-, -, ⟨-, hi⟩ | ⟨-, hi⟩ | ⟨-, hi⟩ | ⟨-, hi⟩⟩ | ⟨-, hlt, hi, -⟩ := decodeHost_instr h <;> cases hi
  rw [ht, List.getElem?_eq_none_iff] at hp
  exact absurd hlt (Nat.not_lt.mpr hp)

/-- A word that is no `SEED` takes no data words from the port, legal or not (30_encoding.md R70). -/
theorem decodeHost_of_not_seed {cw : Word} (n : Nat) (ws : List Word) (ho : cwOpc cw ≠ 1#4) :
    (∃ i, decodeHost n cw ws = .instr i ws) ∨ ∃ why, decodeHost n cw ws = .illegal why ws := by
  have plain : ∀ (i : Instr) (o : BitVec 4), (∃ j, decodePlain i o (cwArg cw) ws = .instr j ws)
      ∨ ∃ why, decodePlain i o (cwArg cw) ws = .illegal why ws := by
    intro i o
    unfold decodePlain
    split
    · exact .inl ⟨_, rfl⟩
    · exact .inr ⟨_, rfl⟩
  obtain ⟨h1, -⟩ | ⟨-, hd⟩ | ⟨-, hd⟩ | ⟨-, hd⟩ | ⟨-, hd⟩ | ⟨-, hd⟩ | ⟨-, hd⟩ := decodeHost_cases n cw ws
  · exact absurd h1 ho
  iterate 4 rw [hd]; exact plain _ _ -- `NEXT`, `MIN`, `MAX`, `SIZE`
  · rw [hd, decodeEq]
    split
    · exact .inr ⟨_, rfl⟩
    · exact .inl ⟨_, rfl⟩
  · exact .inr ⟨_, hd⟩

/-- `SEED` is never illegal (R69), so an illegal word takes no other word from the port. -/
theorem decodeHost_illegal_left {n : Nat} {cw : Word} {ws left : List Word} {why : Illegal}
    (h : decodeHost n cw ws = .illegal why left) : left = ws := by
  by_cases ho : cwOpc cw = 1#4
  · have hd : decodeHost n cw ws = decodeSeed (cwArg cw).toNat ws := if_pos ho
    exact absurd (hd.symm.trans h) (decodeSeed_ne_illegal _ _ _ _)
  · obtain ⟨i, hd⟩ | ⟨w, hd⟩ := decodeHost_of_not_seed n ws ho <;> cases hd.symm.trans h
    rfl

/-- An illegal word's fault entry, exactly on an unfaulted instance. -/
theorem illegalCommand_eq_faultEntry_iff {s : State} {g : Instance} (hg : s.insts[s.sel]? = some g) :
    illegalCommand s = .next ((s.putInst { g with fault := true, cause := 4#4 }).respond (.raised .illegalCommand) none)
      ↔ g.fault = false := by
  cases hf : g.fault with
  | false => exact iff_of_true ((hostGate_quiet hg hf _).trans (raise_quiet hf _ s)) rfl
  | true =>
    refine iff_of_false (fun h => ?_) nofun
    have hno : NoFaultEntry s _ g := .answered hg ((hostGate_faulted hg hf _).symm.trans h) nofun
    exact hno.replies_ne _ _ _ rfl

/-- Settles O44: an illegal word enters the fault on an unfaulted instance; a legal one raises another cause or none. -/
theorem illegalWordTakesFaultEntry : Obligations.IllegalWordTakesFaultEntry := by
  intro s g p cw ws rest hp hg
  rw [← illegalWordsAreExactlyThese s.insts.length cw ws, step_command hp]
  have hg' : ∀ q, (s.accept p q).insts[(s.accept p q).sel]? = some g := fun _ => hg
  cases hd : decodeHost s.nInst cw ws with
  | instr i left =>
    refine iff_of_false (fun h => ?_) fun ⟨_, _, _, hd'⟩ => nomatch hd.symm.trans hd'
    exact not_raises_illegalCommand_of_decodeHost hd (s.accept p _) rfl (.of_exec (hg' _) h rfl)
  | illegal why left =>
    obtain rfl := decodeHost_illegal_left hd
    exact (illegalCommand_eq_faultEntry_iff (hg' _)).trans (and_iff_left ⟨why, left, hd⟩).symm
  | truncated n => exact iff_of_false nofun fun ⟨_, _, _, hd'⟩ => nomatch hd.symm.trans hd'

/-! ### While `FAULT = 1` (R155, R159) -/

/-- Every command but `MIN`, `MAX` and `SIZE` is gated. -/
theorem exec_of_faulted {s : State} {g : Instance} {i : Instr} (hg : s.insts[s.sel]? = some g) (hf : g.fault = true)
    (hc : i.isCommand = true) (hmin : i ≠ .min) (hmax : i ≠ .max) (hsize : i ≠ .size) :
    exec i s = .next (s.respond .faulted none) := by
  cases i with
  | seed data => exact hostGate_faulted hg hf _
  | next => exact hostGate_faulted hg hf _
  | eq peer => exact hostGate_faulted hg hf _
  | min => exact absurd rfl hmin
  | max => exact absurd rfl hmax
  | size => exact absurd rfl hsize
  | _ => cases hc

/-- Settles O42: the three commands are gated. -/
theorem faultedCommandsAreRefused : Obligations.FaultedCommandsAreRefused := by
  intro s g data peer hg hf t
  exact ⟨exec_of_faulted hg hf rfl nofun nofun nofun, exec_of_faulted hg hf rfl nofun nofun nofun,
    exec_of_faulted hg hf rfl nofun nofun nofun⟩

/-- One word only decodes to each of `MIN`, `MAX` and `SIZE` (30_encoding.md R61, R62). -/
theorem cw_of_decodeHost {n : Nat} {cw : Word} {ws left : List Word} {i : Instr}
    (h : decodeHost n cw ws = .instr i left) :
    (i = .min → cw = 0x30000000#32) ∧ (i = .max → cw = 0x40000000#32) ∧ (i = .size → cw = 0x50000000#32) := by
  obtain ⟨-, own, henc, -⟩ := decodeReadsOnlyEncodings n cw ws i left h
  refine ⟨?_, ?_, ?_⟩ <;> rintro rfl <;> cases henc <;> rfl

/-- Settles O43: an illegal word is refused like a gated command, and only a `SEED` takes words from the port. -/
theorem faultedPortRefusesEveryOtherWord : Obligations.FaultedPortRefusesEveryOtherWord := by
  intro s g p cw ws rest hp hg hf hmin hmax hsize hlen
  have hg' : ∀ q, (s.accept p q).insts[(s.accept p q).sel]? = some g := fun _ => hg
  rw [step_command hp]
  by_cases ho : cwOpc cw = 1
  · rw [decodeHost_of_seed _ ho (hlen ho), if_pos ho]
    exact exec_of_faulted (hg' _) hf rfl nofun nofun nofun
  · rw [if_neg ho, List.drop_zero]
    obtain ⟨i, hd⟩ | ⟨why, hd⟩ := decodeHost_of_not_seed s.nInst ws ho <;> rw [hd]
    · obtain ⟨cwMin, cwMax, cwSize⟩ := cw_of_decodeHost hd
      exact exec_of_faulted (hg' _) hf (decodeHost_isCommand hd) (fun hi => hmin (cwMin hi))
        (fun hi => hmax (cwMax hi)) fun hi => hsize (cwSize hi)
    · exact hostGate_faulted (hg' _) hf _

/-! ### A fault lasts (R162, R163) -/

/-- No instruction takes the fault or its cause away. -/
theorem Effect.keeps_fault {d : Descriptor} {g g' : Instance} {i : Instr} (h : Effect d g i g') (hf : g.fault = true) :
    g'.fault = true ∧ g'.cause = g.cause := by
  cases h with
  | same => exact ⟨hf, rfl⟩
  | latch _ c =>
    rw [Instance.latch_of_faulted c g hf]
    exact ⟨hf, rfl⟩
  | seed data hq => exact absurd (hf.symm.trans hq) nofun
  | next _ y hq => exact absurd (hf.symm.trans hq) nofun
  | ringSet => exact ⟨hf, rfl⟩
  | advance => exact ⟨hf, rfl⟩
  | clrcur => exact ⟨hf, rfl⟩

/-- No command changes a faulted instance (R155). -/
theorem Effect.eq_of_faulted {d : Descriptor} {g g' : Instance} {i : Instr} (h : Effect d g i g')
    (hc : i.isCommand = true) (hf : g.fault = true) : g' = g := by
  cases h with
  | same => rfl
  | latch _ c => exact Instance.latch_of_faulted c g hf
  | seed data hq => exact absurd (hf.symm.trans hq) nofun
  | next _ y hq => exact absurd (hf.symm.trans hq) nofun
  | ringSet => cases hc
  | advance => cases hc
  | clrcur => cases hc

/-- What a step on any input but the reset signal leaves of a faulted instance. -/
theorem StepEffect.of_faulted {s : State} {x : Input} {g g' : Instance} (h : StepEffect s x g g')
    (hx : s.pending.head? = some x) (hf : g.fault = true) (hreset : x ≠ .reset x.port) :
    g'.fault = true ∧ g'.cause = g.cause ∧ (x.fromHost = true → g' = g) := by
  cases h with
  | run hrun he =>
    obtain ⟨hfault, hcause⟩ := he.keeps_fault hf
    refine ⟨hfault, hcause, fun hhost => ?_⟩
    obtain ⟨cw, ws, left, -, hd⟩ | ⟨hunit, -⟩ := fetch_run hrun hx
    · exact he.eq_of_faulted (decodeHost_isCommand hd) hf
    · rw [hhost] at hunit
      cases hunit
  | refused => exact ⟨hf, rfl, fun _ => rfl⟩
  | illegal =>
    rw [Instance.latch_of_faulted _ g hf]
    exact ⟨hf, rfl, fun _ => rfl⟩
  | reset hx => exact absurd hx hreset

/-- Settles O46: a step writes only the instance its input is for, and of a faulted one it keeps fault and cause. -/
theorem faultIsStickyUntilReset : Obligations.FaultIsStickyUntilReset := by
  intro s t q g h hg hf hreset
  obtain ⟨-, rfl⟩ | ⟨x, k, k', hx, hk, he, -, -, hinsts⟩ := step_next h
  · exact ⟨g, hg, hf, rfl, fun _ => rfl⟩
  rw [hinsts]
  by_cases hq : x.port = q
  · subst hq
    cases hk.symm.trans hg
    obtain ⟨hlt, -⟩ := List.getElem?_eq_some_iff.mp hg
    obtain ⟨hfault, hcause, hsame⟩ := he.of_faulted hx hf fun h => hreset (hx.trans (congrArg some h))
    exact ⟨k', List.getElem?_set_self hlt, hfault, hcause, fun hhost => hsame (hhost x hx)⟩
  · rw [List.getElem?_set_ne hq]
    exact ⟨g, hg, hf, rfl, fun _ => rfl⟩

/-! ### Nothing pending (R175) -/

/-- Settles O50: an empty queue is fetched as the idle step. -/
theorem idleKeepsAllState : Obligations.IdleKeepsAllState := by
  intro s hp
  have hidle : fetch s = .idle := by simp only [fetch, hp]
  simp only [step, hidle]

end Sys2Proof.Machine
end

section
/-! The proof about the reset and the hazards (70_reset_and_hazards.md): the host never waits for the machine (R194), and the
machine waits for the host only inside a `SEED` (R187). -/

namespace Sys2Proof.Machine

/-! ### A command on an existing instance completes -/

/-- A gated command completes when its body does; on a faulted instance the body is not reached. -/
theorem hostGate_completes {s : State} {g : Instance} {f : Instance → Result} (hg : s.insts[s.sel]? = some g)
    (h : ∃ t, f g = .next t) : ∃ t, hostGate s f = .next t := by
  cases hf : g.fault with
  | true => exact ⟨_, hostGate_faulted hg hf f⟩
  | false => rwa [hostGate_quiet hg hf f]

/-- An absent peer is fault entry, not a stop. -/
theorem execEq_completes {s : State} {g : Instance} (hg : s.insts[s.sel]? = some g) (peer : BitVec 28) :
    ∃ t, execEq peer s = .next t := by
  refine hostGate_completes hg ?_
  cases s.insts[peer.toNat]? with
  | none => exact ⟨_, rfl⟩
  | some h => exact ⟨_, rfl⟩

theorem command_completes {s : State} {g : Instance} {i : Instr} (hg : s.insts[s.sel]? = some g)
    (hc : i.isCommand = true) : ∃ t, exec i s = .next t := by
  by_cases hne : ∀ e, i ≠ .eq e
  · obtain ⟨g', st, x, hlocal⟩ := command_local hc hne s.desc g
    exact ⟨_, hlocal s rfl hg⟩
  · obtain ⟨peer, rfl⟩ : ∃ e, i = .eq e := by simpa using hne
    exact execEq_completes hg peer

theorem illegalCommand_completes {s : State} {g : Instance} (hg : s.insts[s.sel]? = some g) :
    ∃ t, illegalCommand s = .next t :=
  hostGate_completes hg ⟨_, rfl⟩

/-! ### What the machine waits for (R187) -/

/-- Only a `SEED` whose words are not all there reads as truncated (30_encoding.md R70). -/
theorem decodeHost_truncated {n k : Nat} {cw : Word} {ws : List Word} (h : decodeHost n cw ws = .truncated k) :
    cwOpc cw = 1#4 ∧ ws.length < (cwArg cw).toNat ∧ k = (cwArg cw).toNat - ws.length := by
  by_cases ho : cwOpc cw = 1#4
  · have hd : decodeSeed (cwArg cw).toNat ws = .truncated k := (if_pos ho).symm.trans h
    unfold decodeSeed at hd
    split at hd <;> cases hd
    exact ⟨ho, Nat.lt_of_not_le ‹_›, rfl⟩
  · obtain ⟨i, hd⟩ | ⟨why, hd⟩ := decodeHost_of_not_seed n ws ho <;> cases hd.symm.trans h

/-- Settles O51: a host input is a reset signal, which always completes, or words on a command port, which read as a command,
as an illegal word, or as a `SEED` short of data words. -/
theorem hostInputAlwaysTerminates : Obligations.HostInputAlwaysTerminates := by
  intro s x rest hp hhost hport
  cases x with
  | command p cw data =>
    have hg : ∀ q, (s.accept p q).insts[(s.accept p q).sel]? = some s.insts[p] := fun _ => List.getElem?_eq_getElem hport
    rw [step_command hp]
    cases hd : decodeHost s.nInst cw data with
    | instr i left => exact .inl (command_completes (hg _) (decodeHost_isCommand hd))
    | illegal why left => exact .inl (illegalCommand_completes (hg _))
    | truncated k =>
      obtain ⟨ho, hlt, rfl⟩ := decodeHost_truncated hd
      exact .inr ⟨p, cw, data, rfl, ho, hlt, rfl⟩
  | reset p => exact .inl ⟨_, step_reset hp hport⟩
  | _ => cases hhost

end Sys2Proof.Machine
end
